-- ==== Sys2Proof/Word.lean ====
section
/-! DEFINITION. The two word types of the block: a byte and a millisecond time value. -/

namespace Sys2Proof

/-- A byte: 8 bits, unsigned (R9). -/
abbrev Byte := BitVec 8

/-- A time value or line speed: an unsigned 32-bit number (R7 `TIME_W`, R199). -/
abbrev Word32 := BitVec 32

end Sys2Proof
end

