-- ==== Sys2Proof/Config.lean ====
section
/-! DEFINITION. What an implementation fixes (R7, R8) and the free values of the model. -/

namespace Sys2Proof

/-- The implementation parameters of R7 that a model takes as arguments, with the constraints of R8 and R142 as
proof fields, so that a parameter set that breaks them cannot be built (U11).
The last constraint is DEDUCED: R145 divides by `CH_IN_MAX - CH_IN_MIN` (log 1). -/
structure Params where
  maxLen : Nat
  maxPayload : Nat
  localAddr : Byte
  typeChannels : Byte
  typeLinkStats : Byte
  typeGps : Byte
  packetTimeoutMs : Nat
  failsafeMs : Nat
  chInMin : Int
  chInMax : Int
  chOutMin : Int
  chOutMax : Int
  maxLen_ge : 3 ≤ maxLen
  maxLen_le : maxLen ≤ 253
  maxPayload_le : maxPayload + 2 ≤ maxLen
  packetTimeout_lt : packetTimeoutMs < 2 ^ 31
  failsafe_lt : failsafeMs < 2 ^ 31
  channels_ne_linkStats : typeChannels ≠ typeLinkStats
  channels_ne_gps : typeChannels ≠ typeGps
  linkStats_ne_gps : typeLinkStats ≠ typeGps
  chIn_ne : chInMin ≠ chInMax
  deriving DecidableEq, Repr

/-- The default values of R7 (log 1; `MAX_LEN`, `TYPE_LINK_STATS` and `TYPE_GPS` rest on general knowledge, log 16). -/
def Params.default : Params where
  maxLen := 62
  maxPayload := 60
  localAddr := 0xC8
  typeChannels := 0x16
  typeLinkStats := 0x14
  typeGps := 0x02
  packetTimeoutMs := 100
  failsafeMs := 1000
  chInMin := 172
  chInMax := 1811
  chOutMin := 1000
  chOutMax := 2000
  maxLen_ge := by decide
  maxLen_le := by decide
  maxPayload_le := by decide
  packetTimeout_lt := by decide
  failsafe_lt := by decide
  channels_ne_linkStats := by decide
  channels_ne_gps := by decide
  linkStats_ne_gps := by decide
  chIn_ne := by decide

namespace Config

/-- The CRC-8 generator polynomial, `x^8` term implicit (R7 `CRC_POLY`, R101). -/
def crcPoly : Byte := 0xD5

/-- The initial value of the CRC register (R7 `CRC_INIT`, R100). -/
def crcInit : Byte := 0x00

/-- The value XORed into the final CRC (R7 `CRC_XOROUT`, R104; log 16). -/
def crcXorout : Byte := 0x00

/-- FREE VALUE. What a buffer location reads as while it holds no byte that was appended or shifted there (R31, U1, U2):
any value, fixed per location (log 4). -/
opaque staleByte : Nat → Byte

/-- FREE VALUE. The value of channel `i` at the `k`-th occasion on which the spec leaves the channel vector unspecified
(R34, R146, U4, U5; log 3). -/
opaque freeChannel : Nat → Nat → Int

end Config
end Sys2Proof
end

