-- ==== Sys2Proof/Syntax.lean ====
section
/-! DEFINITION. The terms of the block: frames, events, the beats of the two ports, and the instructions. -/

namespace Sys2Proof

/-- A frame as a record (R58, R70). -/
structure Frame where
  destinationAddress : Byte
  declaredLength : Byte
  typeTag : Byte
  payload : List Byte
  checksum : Byte
  deriving DecidableEq, Repr

/-- What becomes of a valid frame: the five classes of the address filter and the type switch (R141, R142). -/
inductive FrameClass where
  | channels
  | linkStats
  | gps
  | unknownType
  | notLocal
  deriving DecidableEq, Repr

/-- The ten kinds of output event with their data (R79). -/
inductive Event where
  | rawByte (b : Byte)
  | frameValid (f : List Byte)
  | linkUp
  | linkDown
  | channelsUpdated
  | linkStatistics (p : List Byte)
  | gps (p : List Byte)
  | txWrite (s : List Byte)
  | txFlush
  | setLineSpeed (s : Word32)
  deriving DecidableEq, Repr

/-- One beat of the command port: the reset pin and the command signals sampled with it (R78, D2). -/
structure Beat where
  rst : Bool
  op : BitVec 3
  data : Byte
  now : Word32
  deriving DecidableEq, Repr

/-- One beat of the event port (R79, D2). -/
structure EvtBeat where
  kind : BitVec 4
  data : Word32
  first : Bool
  last : Bool
  deriving DecidableEq, Repr

/-- The instructions: one constructor per row of `spec/opcode_table.json`, in the table's order.
The pin and the eight command codes (R78, R81); the internal operations (R78), which have no encoding; the frame
classes, each with the frame it hands on (R140); the events, each with its data (R79). -/
inductive Instr where
  | reset
  | nop
  | rxByte (b : Byte) (now : Word32)
  | poll (now : Word32)
  | setPassthrough (val : Bool) (speed : Option Word32)
  | queueFrame (addr type : Byte) (payload : List Byte)
  | reserved5
  | reserved6
  | reserved7
  | append (b : Byte)
  | validate (now : Word32)
  | shift1
  | shiftN (n : Nat)
  | overflow
  | drain (now : Word32)
  | dispatch (now : Word32)
  | linkTouch (now : Word32)
  | linkCheck (now : Word32)
  | crc8 (s : List Byte)
  | chDecode
  | frameChannels (f : Frame) (now : Word32)
  | frameLinkStats (f : Frame)
  | frameGps (f : Frame)
  | frameUnknownType (f : Frame)
  | frameNotLocal (f : Frame)
  | rawByte (b : Byte)
  | frameValid (f : List Byte)
  | linkUp
  | linkDown
  | channelsUpdated
  | linkStatistics (p : List Byte)
  | gps (p : List Byte)
  | txWrite (s : List Byte)
  | txFlush
  | setLineSpeed (s : Word32)
  deriving DecidableEq, Repr

/-- How an instruction stands at the block's boundary: on the command port, on the wire, on the event port, or not at
all (R78, R79, R70). -/
inductive Encoding where
  | port (beats : List Beat)
  | wire (bytes : List Byte)
  | evt (beats : List EvtBeat)
  | internal
  deriving DecidableEq, Repr

end Sys2Proof
end

