-- ==== Sys2Proof/Machine/FrameFormat.lean ====
section
/-! DEFINITION. The wire frame: its layout, its length and checksum rules, and its class (R58, R70 to R76, R141, R142). -/

namespace Sys2Proof

/-- Capacity of the receive buffer (R7, R21). -/
def Params.cap (p : Params) : Nat := p.maxLen + 2

/-- A length byte is plausible: `3 <= len <= MAX_LEN`, unsigned (R72). -/
def Params.plausible (p : Params) (len : Nat) : Bool := decide (3 ≤ len ∧ len ≤ p.maxLen)

/-- The bytes of a frame in wire order (R70). -/
def Frame.bytes (f : Frame) : List Byte :=
  [f.destinationAddress, f.declaredLength, f.typeTag] ++ f.payload ++ [f.checksum]

/-- A frame is valid (R74): plausible length byte, as many payload bytes as it declares (R71), matching checksum (R73).
Neither the address nor the type tag takes part. -/
def Frame.valid (p : Params) (f : Frame) : Bool :=
  p.plausible f.declaredLength.toNat && decide (f.payload.length + 2 = f.declaredLength.toNat) &&
    decide (f.checksum = Machine.crc8 (f.typeTag :: f.payload))

/-- The class of a frame: the address filter (R141), then the type switch in the order of R140 (R142). -/
def Frame.classify (p : Params) (f : Frame) : FrameClass :=
  if f.destinationAddress ≠ p.localAddr then .notLocal
  else if f.typeTag = p.typeChannels then .channels
  else if f.typeTag = p.typeLinkStats then .linkStats
  else if f.typeTag = p.typeGps then .gps
  else .unknownType

/-- The frame with the given address, type and payload: length `n + 2` and checksum as R177 constructs them. -/
def Frame.build (addr type : Byte) (payload : List Byte) : Frame where
  destinationAddress := addr
  declaredLength := BitVec.ofNat 8 (payload.length + 2)
  typeTag := type
  payload := payload
  checksum := Machine.crc8 (type :: payload)

/-- Reads a byte sequence as a frame record: three header bytes, payload, last byte (R58).
No answer for fewer than four bytes; the length byte is not looked at. -/
def Frame.ofBytes : List Byte → Option Frame
  | a :: l :: t :: rest =>
    match rest.getLast? with
    | some c => some ⟨a, l, t, rest.dropLast, c⟩
    | none => none
  | _ => none

end Sys2Proof
end

