-- ==== Sys2Proof/WellFormed.lean ====
section
/-! DEFINITION. Which instructions are well formed under a parameter set. -/

namespace Sys2Proof

/-- The operand ranges the rules give: a QUEUE_FRAME payload has at most 255 bytes (R175); SHIFTN discards 5 to CAP bytes
(R117, R72); a frame of a class row is a valid frame of that class (R74, R140); an event's byte sequence has the size its
emitter gives it (R140, R147, R148, R177). -/
def Instr.wf (p : Params) : Instr → Bool
  | .reset => true
  | .nop => true
  | .rxByte _ _ => true
  | .poll _ => true
  | .setPassthrough _ _ => true
  | .queueFrame _ _ payload => decide (payload.length ≤ 255)
  | .reserved5 => true
  | .reserved6 => true
  | .reserved7 => true
  | .append _ => true
  | .validate _ => true
  | .shift1 => true
  | .shiftN n => decide (5 ≤ n ∧ n ≤ p.cap)
  | .overflow => true
  | .drain _ => true
  | .dispatch _ => true
  | .linkTouch _ => true
  | .linkCheck _ => true
  | .crc8 _ => true
  | .chDecode => true
  | .frameChannels f _ => f.valid p && decide (f.classify p = .channels)
  | .frameLinkStats f => f.valid p && decide (f.classify p = .linkStats)
  | .frameGps f => f.valid p && decide (f.classify p = .gps)
  | .frameUnknownType f => f.valid p && decide (f.classify p = .unknownType)
  | .frameNotLocal f => f.valid p && decide (f.classify p = .notLocal)
  | .rawByte _ => true
  | .frameValid f => decide (5 ≤ f.length ∧ f.length ≤ p.cap)
  | .linkUp => true
  | .linkDown => true
  | .channelsUpdated => true
  | .linkStatistics q => decide (1 ≤ q.length ∧ q.length + 2 ≤ p.maxLen)
  | .gps q => decide (1 ≤ q.length ∧ q.length + 2 ≤ p.maxLen)
  | .txWrite s => decide (4 ≤ s.length ∧ s.length ≤ p.maxPayload + 4)
  | .txFlush => true
  | .setLineSpeed _ => true

end Sys2Proof
end

