-- ==== Sys2Proof/Decode.lean ====
section
/-! DEFINITION. The decoders of the command port, of the wire and of the event port, total and rejecting by name, and
after them the encoder (R78, R79, R81, R70, D2). -/

namespace Sys2Proof

/-- Why a decoder gives no instruction. -/
inductive DecodeError where
  /-- No beat is presented: the port is idle (R4). -/
  | portIdle
  /-- A QUEUE_FRAME whose beats have not all been presented yet (D2). -/
  | incompleteQueueFrame
  /-- A reset beat inside the beats of a QUEUE_FRAME; `rest` is what follows the reset beat (R240; log 9). -/
  | abandonedByReset (rest : List Beat)
  /-- Beats are left over after the one instruction. -/
  | trailingBeats
  /-- Fewer bytes than the shortest record of a frame. -/
  | frameTooShort
  /-- The length byte is not plausible (R72). -/
  | badLength
  /-- The byte count differs from the declared length plus two (R71, R74). -/
  | lengthMismatch
  /-- The checksum differs (R73). -/
  | badChecksum
  /-- An event kind that is never emitted: 0, 11 to 15 (R79). -/
  | noEventKind
  /-- The beats of an event end before its last beat, or there is none (D2). -/
  | eventTruncated
  /-- The first and last marks or the kinds of an event's beats do not agree (D2). -/
  | eventBroken
  /-- An internal operation has no encoding (R78). -/
  | noEncoding
  deriving DecidableEq, Repr

/-! ### The command port -/

/-- The next `k` beats of a QUEUE_FRAME, as data bytes, and the beats left on the port (D2).
A beat of another command is not accepted before the QUEUE_FRAME has finished: it waits on the port (R200, U9; log 7).
A reset beat among them abandons the command, and overrides what waits (R240; log 9). -/
def takeQueueBytes : Nat → List Beat → Except DecodeError (List Byte × List Beat)
  | 0, bs => .ok ([], bs)
  | _ + 1, [] => .error .incompleteQueueFrame
  | k + 1, b :: bs =>
    if b.rst then .error (.abandonedByReset bs)
    else if b.op ≠ 4 then
      match takeQueueBytes (k + 1) bs with
      | .ok (xs, rest) => .ok (xs, b :: rest)
      | .error e => .error e
    else
      match takeQueueBytes k bs with
      | .ok (xs, rest) => .ok (b.data :: xs, rest)
      | .error e => .error e

/-- A QUEUE_FRAME: the beats `addr`, `type`, `n`, then `n` payload beats (R78, D2). -/
def decodeQueueFrame (bs : List Beat) : Except DecodeError (Instr × List Beat) :=
  match takeQueueBytes 3 bs with
  | .ok ([addr, type, n], rest) =>
    match takeQueueBytes n.toNat rest with
    | .ok (payload, rest') => .ok (.queueFrame addr type payload, rest')
    | .error e => .error e
  | .ok _ => .error .incompleteQueueFrame
  | .error e => .error e

/-- A command of one beat, by its 3-bit code (R78, R81); `QUEUE_FRAME` is decoded before this is asked. -/
def decodeOneBeat (b : Beat) : Instr :=
  if b.op = 0 then .nop
  else if b.op = 1 then .rxByte b.data b.now
  else if b.op = 2 then .poll b.now
  else if b.op = 3 then .setPassthrough (b.data.getLsbD 0) (if b.data.getLsbD 1 then some b.now else none)
  else if b.op = 5 then .reserved5
  else if b.op = 6 then .reserved6
  else .reserved7

/-- The next instruction on the command port and the beats after it.
The reset pin overrides the command it is presented with and abandons a QUEUE_FRAME in progress (R240). -/
def decodePort : List Beat → Except DecodeError (Instr × List Beat)
  | [] => .error .portIdle
  | b :: bs =>
    if b.rst then .ok (.reset, bs)
    else if b.op = 4 then
      match decodeQueueFrame (b :: bs) with
      | .error (.abandonedByReset rest) => .ok (.reset, rest)
      | r => r
    else .ok (decodeOneBeat b, bs)

/-! ### The wire -/

/-- The frame-class instruction of a frame handed on at time `now` (R140 to R142). -/
def frameInstr (p : Params) (now : Word32) (f : Frame) : Instr :=
  match f.classify p with
  | .channels => .frameChannels f now
  | .linkStats => .frameLinkStats f
  | .gps => .frameGps f
  | .unknownType => .frameUnknownType f
  | .notLocal => .frameNotLocal f

/-- A whole frame from the wire: refused unless it is a valid frame (R74), then classified (R140). -/
def decodeFrame (p : Params) (now : Word32) (bs : List Byte) : Except DecodeError Instr :=
  match Frame.ofBytes bs with
  | none => .error .frameTooShort
  | some f =>
    if ¬p.plausible f.declaredLength.toNat then .error .badLength
    else if f.payload.length + 2 ≠ f.declaredLength.toNat then .error .lengthMismatch
    else if f.checksum ≠ Machine.crc8 (f.typeTag :: f.payload) then .error .badChecksum
    else .ok (frameInstr p now f)

/-! ### The event port -/

/-- The 4-bit code of an event (R79). -/
def Event.kind : Event → BitVec 4
  | .rawByte _ => 1
  | .frameValid _ => 2
  | .linkUp => 3
  | .linkDown => 4
  | .channelsUpdated => 5
  | .linkStatistics _ => 6
  | .gps _ => 7
  | .txWrite _ => 8
  | .txFlush => 9
  | .setLineSpeed _ => 10

/-- The event row's instruction. -/
def Instr.ofEvent : Event → Instr
  | .rawByte b => .rawByte b
  | .frameValid f => .frameValid f
  | .linkUp => .linkUp
  | .linkDown => .linkDown
  | .channelsUpdated => .channelsUpdated
  | .linkStatistics q => .linkStatistics q
  | .gps q => .gps q
  | .txWrite s => .txWrite s
  | .txFlush => .txFlush
  | .setLineSpeed s => .setLineSpeed s

/-- The bytes of a multi-byte event of kind `k`, one a beat in bits 7:0, up to the beat marked last (D2).
DESIGN CHOICE: bits 31:8 are ignored (log 8). -/
def takeEvtBytes (k : BitVec 4) : Bool → List EvtBeat → Except DecodeError (List Byte × List EvtBeat)
  | _, [] => .error .eventTruncated
  | first, b :: bs =>
    if b.kind ≠ k ∨ b.first ≠ first then .error .eventBroken
    else if b.last then .ok ([b.data.setWidth 8], bs)
    else
      match takeEvtBytes k false bs with
      | .ok (xs, rest) => .ok (b.data.setWidth 8 :: xs, rest)
      | .error e => .error e

/-- A multi-byte event, made by `mk` from its bytes. -/
def decodeEvtBytes (mk : List Byte → Event) (k : BitVec 4) (bs : List EvtBeat) :
    Except DecodeError (Event × List EvtBeat) :=
  match takeEvtBytes k true bs with
  | .ok (xs, rest) => .ok (mk xs, rest)
  | .error e => .error e

/-- An event of one beat, which is marked first and last (D2). -/
def decodeEvtOne (e : Event) (b : EvtBeat) (bs : List EvtBeat) : Except DecodeError (Event × List EvtBeat) :=
  if b.first && b.last then .ok (e, bs) else .error .eventBroken

/-- The next event on the event port and the beats after it (R79, D2).
DESIGN CHOICE: the bits of `evt_data` to which D2 gives no value are ignored (log 8). -/
def decodeEvent : List EvtBeat → Except DecodeError (Event × List EvtBeat)
  | [] => .error .eventTruncated
  | b :: bs =>
    if b.kind = 1 then decodeEvtOne (.rawByte (b.data.setWidth 8)) b bs
    else if b.kind = 2 then decodeEvtBytes .frameValid 2 (b :: bs)
    else if b.kind = 3 then decodeEvtOne .linkUp b bs
    else if b.kind = 4 then decodeEvtOne .linkDown b bs
    else if b.kind = 5 then decodeEvtOne .channelsUpdated b bs
    else if b.kind = 6 then decodeEvtBytes .linkStatistics 6 (b :: bs)
    else if b.kind = 7 then decodeEvtBytes .gps 7 (b :: bs)
    else if b.kind = 8 then decodeEvtBytes .txWrite 8 (b :: bs)
    else if b.kind = 9 then decodeEvtOne .txFlush b bs
    else if b.kind = 10 then decodeEvtOne (.setLineSpeed b.data) b bs
    else .error .noEventKind

/-- The one instruction an encoding stands for, under the parameters `p` and, for a frame, at the time `now`. -/
def decode (p : Params) (now : Word32) : Encoding → Except DecodeError Instr
  | .port bs =>
    match decodePort bs with
    | .ok (i, []) => .ok i
    | .ok _ => .error .trailingBeats
    | .error e => .error e
  | .wire bs => decodeFrame p now bs
  | .evt bs =>
    match decodeEvent bs with
    | .ok (e, []) => .ok (.ofEvent e)
    | .ok _ => .error .trailingBeats
    | .error e => .error e
  | .internal => .error .noEncoding

/-! ### The encoder -/

/-- A command beat with the reset pin low (R78, D2). -/
def Beat.cmd (op : BitVec 3) (data : Byte) (now : Word32) : Beat := ⟨false, op, data, now⟩

/-- `cmd_data` of SET_PASSTHROUGH: bit 0 = `val`, bit 1 = `speed_valid` (D2). -/
def passthroughData (val : Bool) (speed : Option Word32) : Byte :=
  (if val then 1 else 0) ||| (if speed.isSome then 2 else 0)

/-- One beat of QUEUE_FRAME, carrying the byte `x` (D2). -/
def queueBeat (x : Byte) : Beat := .cmd 4 x 0

/-- The beats of QUEUE_FRAME: `addr`, `type`, `n`, then the payload (D2). -/
def queueFrameBeats (addr type : Byte) (payload : List Byte) : List Beat :=
  (addr :: type :: BitVec.ofNat 8 payload.length :: payload).map queueBeat

/-- The beats of a multi-byte event (D2).
DESIGN CHOICE: bits 31:8 of `evt_data`, to which D2 gives no value, are encoded as 0 (log 8). -/
def evtByteBeats (k : BitVec 4) : Bool → List Byte → List EvtBeat
  | _, [] => []
  | first, [x] => [⟨k, x.setWidth 32, first, true⟩]
  | first, x :: y :: xs => ⟨k, x.setWidth 32, first, false⟩ :: evtByteBeats k false (y :: xs)

/-- The event-port coding of an event (R79, D2).
DESIGN CHOICE: the bits of `evt_data` to which D2 gives no value are encoded as 0: bits 31:8 of RAW_BYTE, all of them for
an event without data (log 8). -/
def encodeEvent : Event → List EvtBeat
  | .rawByte b => [⟨1, b.setWidth 32, true, true⟩]
  | .frameValid f => evtByteBeats 2 true f
  | .linkUp => [⟨3, 0, true, true⟩]
  | .linkDown => [⟨4, 0, true, true⟩]
  | .channelsUpdated => [⟨5, 0, true, true⟩]
  | .linkStatistics q => evtByteBeats 6 true q
  | .gps q => evtByteBeats 7 true q
  | .txWrite s => evtByteBeats 8 true s
  | .txFlush => [⟨9, 0, true, true⟩]
  | .setLineSpeed s => [⟨10, s, true, true⟩]

/-- The encoding of an instruction at the block's boundary (R78, R79, R81, R70, D2). -/
def encode : Instr → Encoding
  | .reset => .port [⟨true, 0, 0, 0⟩]
  | .nop => .port [.cmd 0 0 0]
  | .rxByte b now => .port [.cmd 1 b now]
  | .poll now => .port [.cmd 2 0 now]
  | .setPassthrough val speed => .port [.cmd 3 (passthroughData val speed) (speed.getD 0)]
  | .queueFrame addr type payload => .port (queueFrameBeats addr type payload)
  | .reserved5 => .port [.cmd 5 0 0]
  | .reserved6 => .port [.cmd 6 0 0]
  | .reserved7 => .port [.cmd 7 0 0]
  | .append _ => .internal
  | .validate _ => .internal
  | .shift1 => .internal
  | .shiftN _ => .internal
  | .overflow => .internal
  | .drain _ => .internal
  | .dispatch _ => .internal
  | .linkTouch _ => .internal
  | .linkCheck _ => .internal
  | .crc8 _ => .internal
  | .chDecode => .internal
  | .frameChannels f _ => .wire f.bytes
  | .frameLinkStats f => .wire f.bytes
  | .frameGps f => .wire f.bytes
  | .frameUnknownType f => .wire f.bytes
  | .frameNotLocal f => .wire f.bytes
  | .rawByte b => .evt (encodeEvent (.rawByte b))
  | .frameValid f => .evt (encodeEvent (.frameValid f))
  | .linkUp => .evt (encodeEvent .linkUp)
  | .linkDown => .evt (encodeEvent .linkDown)
  | .channelsUpdated => .evt (encodeEvent .channelsUpdated)
  | .linkStatistics q => .evt (encodeEvent (.linkStatistics q))
  | .gps q => .evt (encodeEvent (.gps q))
  | .txWrite s => .evt (encodeEvent (.txWrite s))
  | .txFlush => .evt (encodeEvent .txFlush)
  | .setLineSpeed s => .evt (encodeEvent (.setLineSpeed s))

/-! ### The opcode table's own words (log 10) -/

/-- The beats that a table word of the command port stands for: `cmd_op` in bits 2:0, the operands zero (log 10).
QUEUE_FRAME takes three beats (R78, D2: `addr`, `type`, `n = 0`), each with the word's `cmd_op`. -/
def tableBeats (w : Nat) : List Beat :=
  if w = 4 then [queueBeat 0, queueBeat 0, queueBeat 0] else [.cmd (BitVec.ofNat 3 w) 0 0]

/-- The frame that a table word of a frame class stands for: `addr` in bits 23:16, `len` in bits 15:8, `type` in bits 7:0,
a payload of zeros, its checksum (log 10).
The rows leave `len` open; a `len` of 0 stands for the nominal `0x18` of the row's note. -/
def tableFrame (w : Nat) : Frame :=
  let l := w / 256 % 256
  let len := if l = 0 then 24 else l
  let type := BitVec.ofNat 8 w
  let payload := List.replicate (len - 2) 0
  ⟨BitVec.ofNat 8 (w / 65536), BitVec.ofNat 8 len, type, payload, Machine.crc8 (type :: payload)⟩

/-- The instruction the decoders read from a word of `spec/opcode_table.json` (log 10): a 24-bit word is a frame header
(under the default parameters), an 8-bit word below 8 is a command code, another 8-bit word an event code. -/
def decodeTableWord (nbits w : Nat) : Option Instr :=
  if nbits = 24 then (decode Params.default 0 (.wire (tableFrame w).bytes)).toOption
  else if nbits = 8 then
    if w < 8 then (decode Params.default 0 (.port (tableBeats w))).toOption
    else if w < 16 then (decode Params.default 0 (.evt [⟨BitVec.ofNat 4 w, 0, true, true⟩])).toOption
    else none
  else none

end Sys2Proof
end

