-- ==== Sys2Proof/Machine/State.lean ====
section
/-! DEFINITION. The state of the block as plain data, its state after reset, and the reasons a step can stop. -/

namespace Sys2Proof.Machine

/-- The receive buffer's contents (R50): address and byte, addresses strictly rising; a location that is not listed is
stale and has no value here (R31, log 4). -/
abbrev Memory := List Host.Cell

/-- The state: the record of R20, the parameters of R7, and the model's own fields `port`, `events`, `crcOut`, `freeCount`. -/
@[ext]
structure State where
  /-- The receive buffer (R21). -/
  buf : Memory
  /-- The fill cursor (R22). -/
  cursor : Nat
  /-- Link state (R24). -/
  linkUp : Bool
  /-- Time of the last channel-data frame, ms (R25). -/
  lastChannelFrameTime : Word32
  /-- Time of the last received byte, ms (R26). -/
  lastByteTime : Word32
  /-- Mode flag (R27). -/
  passthrough : Bool
  /-- Channel vector (R28). -/
  channels : Vector Int 16
  /-- The implementation parameters, which nothing changes (R7, R30, log 1). -/
  params : Params
  /-- MODEL'S OWN: beats presented on the command port and not yet accepted, oldest first (log 6). -/
  port : List Beat
  /-- MODEL'S OWN: the output event list of the command in progress or last run (R5, log 5). -/
  events : List Event
  /-- MODEL'S OWN: the byte the checksum engine returned to the last CRC8 instruction (log 12). -/
  crcOut : Byte
  /-- MODEL'S OWN: how many occasions for free channel values have passed (log 3). -/
  freeCount : Nat
  deriving DecidableEq, Repr

/-- The block right after reset (R34, R240), with nothing listed in the buffer.
`channels` is a DESIGN CHOICE (log 2); the model's own fields are empty or zero (logs 3, 5, 6, 12). -/
def State.reset : State where
  buf := []
  cursor := 0
  linkUp := false
  lastChannelFrameTime := 0
  lastByteTime := 0
  passthrough := false
  channels := Vector.replicate 16 0
  params := Params.default
  port := []
  events := []
  crcOut := 0
  freeCount := 0

/-- Why the model stops without a next state. No command of R78 does so in a state that R22 and R35 allow (R210); each
guards a call of an internal operation that would access a location, or leave a cursor, that does not exist (log 11).
Every one is safe. -/
inductive Fault where
  /-- Raised by APPEND when `cursor < CAP` does not hold: the location does not exist (R51, R110). Safe. -/
  | appendToFullBuffer
  /-- Raised by SHIFT1, SHIFTN and DRAIN when the bytes to discard are not all in the buffer, or the cursor lies outside it
  (R22, R53, R116, R117). Safe. -/
  | shiftOutsideBuffer
  deriving DecidableEq, Repr

/-- What the model gives no meaning. -/
inductive Refusal where
  /-- Raised by exec's arm of an instruction that has no meaning yet. Safe. -/
  | notModelled (mnemonic : String)
  /-- Raised by the reserved command codes 0b101 to 0b111 (R81). Safe. -/
  | reservedCommandCode (code : BitVec 3)
  deriving DecidableEq, Repr

/-- What running an instruction answers. -/
abbrev Result := Host.Outcome State Fault Refusal

end Sys2Proof.Machine
end

