-- ==== Sys2Proof/Machine/Operands.lean ====
section
/-! DEFINITION. Reading operands: buffer locations, the frame at the head of the buffer, the packed channels and the
big-endian fields of a payload (R51, R55, R58, R77, R144, R145). -/

namespace Sys2Proof.Machine

/-- The byte listed at an address; `none` where nothing is listed. -/
def Memory.read : Memory → Nat → Option Byte
  | [], _ => none
  | (x, y) :: m, a => if a = x then some y else Memory.read m a

/-- `buf[a]`: what location `a` reads as; a stale location reads as its free value (R31, log 4). -/
def State.readByte (s : State) (a : Nat) : Byte := (Memory.read s.buf a).getD (Config.staleByte a)

/-- MemRead(addr, n) (R51). -/
def State.memRead (s : State) (addr n : Nat) : List Byte := (List.range n).map fun j => s.readByte (addr + j)

/-- The valid bytes `buf[0 .. cursor-1]`, oldest first (R21). -/
def State.bytes (s : State) : List Byte := s.memRead 0 s.cursor

/-- `buf[1]` as an unsigned integer: the declared length of a candidate (R58, R71). -/
def State.headLen (s : State) : Nat := (s.readByte 1).toNat

/-- The frame view of the head of the buffer (R58). -/
def State.headFrame (s : State) : Frame where
  destinationAddress := s.readByte 0
  declaredLength := s.readByte 1
  typeTag := s.readByte 2
  payload := s.memRead 3 (s.headLen - 2)
  checksum := s.readByte (s.headLen + 1)

/-- The checksum test of VALIDATE step 3: CRC8 over `buf[2 .. len]` against `buf[len+1]` (R105, R114). -/
def State.headChecksumOk (s : State) : Bool :=
  decide (crc8 (s.memRead 2 (s.headLen - 1)) = s.readByte (s.headLen + 1))

/-- The buffer begins with a valid frame: what VALIDATE guarantees of every DISPATCH (R74, R114, R140). -/
def State.headValid (s : State) : Bool :=
  decide (2 ≤ s.cursor) && s.params.plausible s.headLen && decide (s.headLen + 2 ≤ s.cursor) && s.headChecksumOk

/-- The packed channel field as one integer: payload byte 0 least significant (R77). -/
def packedValue : List Byte → Nat
  | [] => 0
  | b :: bs => b.toNat + 256 * packedValue bs

/-- The raw value of channel `i`: bits `11*i+10 : 11*i` of the first 22 payload bytes (R77, R144, R146). -/
def rawChannel (payload : List Byte) (i : Nat) : Nat := packedValue (payload.take 22) / 2 ^ (11 * i) % 2 ^ 11

/-- The rescale of one raw value: multiply, then divide truncating toward zero, no clamping (R145). -/
def rescale (p : Params) (raw : Nat) : Int :=
  (((raw : Int) - p.chInMin) * (p.chOutMax - p.chOutMin)).tdiv (p.chInMax - p.chInMin) + p.chOutMin

/-- The channel vector that a payload of at least 22 bytes decodes to (R144, R145). -/
def decodedChannels (p : Params) (payload : List Byte) : Vector Int 16 :=
  Vector.ofFn fun i => rescale p (rawChannel payload i.val)

/-- The sixteen free values of occasion `k` (log 3). -/
def freeChannels (k : Nat) : Vector Int 16 := Vector.ofFn fun i => Config.freeChannel k i.val

/-- A `w`-byte big-endian field at payload offset `o` (R55); the block itself reads none, its consumers do (R148). -/
def bigEndianField (payload : List Byte) (o w : Nat) : Nat :=
  ((payload.drop o).take w).foldl (fun acc b => acc * 256 + b.toNat) 0

/-- What the host can read at a command boundary (R33). -/
structure Status where
  linkUp : Bool
  passthrough : Bool
  channels : Vector Int 16
  deriving DecidableEq, Repr

/-- The status outputs (R33). -/
def State.status (s : State) : Status := ⟨s.linkUp, s.passthrough, s.channels⟩

/-- The four implicit states of the reassembler (R23). -/
inductive ReassemblerState where
  | empty
  | accumulating
  | lengthKnown
  | complete
  deriving DecidableEq, Repr

/-- The implicit state, from `(cursor, buffer contents)` (R23). -/
def State.reassemblerState (s : State) : ReassemblerState :=
  if s.cursor = 0 then .empty
  else if s.cursor = 1 then .accumulating
  else if s.cursor < s.headLen + 2 then .lengthKnown
  else .complete

end Sys2Proof.Machine
end

