-- ==== Sys2Proof/Machine/Flags.lean ====
section
/-! DEFINITION. The flags `link_up` and `passthrough`, the two time comparators, and every condition computed from them
(R24, R27, R161, R162, R165, R176, R225). -/

namespace Sys2Proof.Machine

/-- `sub32(now, stamp)`: elapsed time modulo 2^32, unsigned (R9, R165). -/
def elapsed (now stamp : Word32) : Nat := (now - stamp).toNat

/-- The packet-timeout comparator with its `cursor > 0` condition: DRAIN's guard, strict (R119, R225). -/
def State.stale (s : State) (now : Word32) : Bool :=
  decide (0 < s.cursor ∧ s.params.packetTimeoutMs < elapsed now s.lastByteTime)

/-- The failsafe comparator with its `link_up` condition: LINK_CHECK's guard, strict (R162, R225). -/
def State.linkExpired (s : State) (now : Word32) : Bool :=
  s.linkUp && decide (s.params.failsafeMs < elapsed now s.lastChannelFrameTime)

/-- The three no-op conditions of QUEUE_FRAME: link down, passthrough active, payload too long (R176). -/
def State.txRefused (s : State) (n : Nat) : Bool :=
  !s.linkUp || s.passthrough || decide (s.params.maxPayload < n)

end Sys2Proof.Machine
end

