-- ==== Sys2Proof/Machine/Ops.lean ====
section
/-! DEFINITION. The named operations that the meanings share: events, buffer updates, anomalies and their recovery, the
validation loop, the frame handlers, and the two link operations. -/

namespace Sys2Proof.Machine

/-- Runs the second operation on the state the first one leaves. -/
def Result.andThen (r : Result) (f : State → Result) : Result :=
  match r with
  | .next s => f s
  | .fault e => .fault e
  | .refused e => .refused e

/-! ### Updates of the state -/

/-- `emit E(args)`: appends an event to the command's output list (R9). -/
def State.emit (s : State) (e : Event) : State := { s with events := s.events ++ [e] }

/-- MemWrite of one byte, in the memory's canonical form (R51). -/
def Memory.write : Memory → Nat → Byte → Memory
  | [], a, b => [(a, b)]
  | (x, y) :: m, a, b =>
    if a < x then (a, b) :: (x, y) :: m
    else if a = x then (a, b) :: m
    else (x, y) :: Memory.write m a b

/-- Lists the bytes of `l` at the addresses `k, k+1, ...`. -/
def Memory.ofBytesFrom (k : Nat) : List Byte → Memory
  | [] => []
  | b :: bs => (k, b) :: Memory.ofBytesFrom (k + 1) bs

/-- The canonical form: addresses strictly rising. An unlisted location has no value, so no entry can repeat one (log 4). -/
abbrev Memory.wf (m : Memory) : Prop := m.Pairwise fun c d => c.1 < d.1

/-- `buf[cursor] <- b; cursor <- cursor + 1` (R52). -/
def State.pushByte (s : State) (b : Byte) : State :=
  { s with buf := Memory.write s.buf s.cursor b, cursor := s.cursor + 1 }

/-- The effect of a left shift by `k`: the valid bytes become their suffix from index `k`; what lies at and beyond the new
cursor is stale and is scrubbed (R53, R31, U1). -/
def State.shifted (s : State) (k : Nat) : State :=
  { s with buf := Memory.ofBytesFrom 0 (s.bytes.drop k), cursor := s.cursor - k }

/-- `cursor <- 0`: every location is stale (R118, R240). -/
def State.emptied (s : State) : State := { s with buf := [], cursor := 0 }

/-- The channel vector replaced wholesale (R146). -/
def State.setChannels (s : State) (c : Vector Int 16) : State := { s with channels := c }

/-- The channel vector left unspecified: sixteen fresh free values (R34, R146, log 3). -/
def State.freeChannelVector (s : State) : State :=
  { s with channels := freeChannels s.freeCount, freeCount := s.freeCount + 1 }

/-- `last_byte_time <- now` (R195). -/
def State.stampByte (s : State) (now : Word32) : State := { s with lastByteTime := now }

/-- `passthrough <- val` (R185). -/
def State.setMode (s : State) (val : Bool) : State := { s with passthrough := val }

/-- The checksum engine's returned byte (R100, log 12). -/
def State.setCrcOut (s : State) (c : Byte) : State := { s with crcOut := c }

/-! ### Moving the buffer -/

/-- The left shift of R53 with its bounds `1 <= k <= cursor <= CAP` (R22). -/
def leftShift (k : Nat) (s : State) : Result :=
  if 1 ≤ k ∧ k ≤ s.cursor ∧ s.cursor ≤ s.params.cap then .next (s.shifted k) else .fault .shiftOutsideBuffer

/-- The append of R52 with its bound `cursor < CAP` (R110). -/
def appendByte (b : Byte) (s : State) : Result :=
  if s.cursor < s.params.cap then .next (s.pushByte b) else .fault .appendToFullBuffer

/-- Discard exactly one leading byte, surfacing it (R116). -/
def discardOne (s : State) : Result := leftShift 1 (s.emit (.rawByte (s.readByte 0)))

/-- Discard one byte at a time until the buffer is empty; the count is the number of bytes left (R119). -/
def discardAll : Nat → State → Result
  | 0, s => .next s
  | n + 1, s => (discardOne s).andThen (discardAll n)

/-- Discard the `n` leading bytes, surfacing nothing; VALIDATE's `n` is a frame's size, at least 5 (R117).
With `n = 0` the moves of R117 move no byte (log 11). -/
def discardFrame (n : Nat) (s : State) : Result := if n = 0 then .next s else leftShift n s

/-! ### Anomalies: entry, recovery and return (R211, R221, R222) -/

/-- The anomalies A1 to A7 (R211). -/
inductive Anomaly where
  | badLength
  | badCrc
  | bufferFull
  | staleBuffer
  | notLocal
  | unknownType
  | txRefused
  deriving DecidableEq, Repr

/-- The number of an anomaly in the table of R211. -/
def Anomaly.code : Anomaly → Nat
  | .badLength => 1
  | .badCrc => 2
  | .bufferFull => 3
  | .staleBuffer => 4
  | .notLocal => 5
  | .unknownType => 6
  | .txRefused => 7

/-- `raise A`: performs the recovery action of the anomaly and nothing else (R9, R211, R221).
No state is saved, no mode changes; control returns to the operation that raised it (R222). -/
def raise (a : Anomaly) (s : State) : Result :=
  match a with
  | .badLength => discardOne s
  | .badCrc => discardOne s
  | .bufferFull => .next s.emptied
  | .staleBuffer => discardAll s.cursor s
  | .notLocal => .next s
  | .unknownType => .next s
  | .txRefused => .next s

/-! ### The link-heartbeat detector -/

/-- LINK_TOUCH: the stamp, then the flag and its event on the down-to-up edge only (R161). -/
def touchLink (now : Word32) (s : State) : State :=
  let s := { s with lastChannelFrameTime := now }
  if s.linkUp then s else ({ s with linkUp := true } : State).emit .linkUp

/-- LINK_CHECK: the flag and its event on the up-to-down edge only (R162). -/
def checkLink (now : Word32) (s : State) : State :=
  if s.linkExpired now then ({ s with linkUp := false } : State).emit .linkDown else s

/-! ### Hand-off of a valid frame -/

/-- CH_DECODE on a payload: all sixteen channels, decoded from the first 22 bytes, unspecified when there are fewer
(R144 to R146). -/
def decodeChannels (payload : List Byte) (s : State) : State :=
  if 22 ≤ payload.length then s.setChannels (decodedChannels s.params payload) else s.freeChannelVector

/-- CHANNELS(now) on the frame's payload (R143). -/
def handleChannels (payload : List Byte) (now : Word32) (s : State) : State :=
  (touchLink now (decodeChannels payload s)).emit .channelsUpdated

/-- The hand-off of frame `f`, reported as `bytes`: FRAME_VALID first (R140), then by the frame's class the handler, or the
anomaly that does nothing (R141 to R149). -/
def handOffAs (bytes : List Byte) (now : Word32) (f : Frame) (s : State) : Result :=
  let s := s.emit (.frameValid bytes)
  match f.classify s.params with
  | .channels => .next (handleChannels f.payload now s)
  | .linkStats => .next (s.emit (.linkStatistics f.payload))
  | .gps => .next (s.emit (.gps f.payload))
  | .unknownType => raise .unknownType s
  | .notLocal => raise .notLocal s

/-- The hand-off of frame `f` (R140). -/
def handOff (now : Word32) (f : Frame) (s : State) : Result := handOffAs f.bytes now f s

/-! ### The validation loop -/

/-- VALIDATE's loop (R111): step 1 (R112), step 2 (R113), step 3 (R114), step 4 (R115).
The count bounds the passes; `cursor` passes always suffice, since each non-exiting pass lowers `cursor` (R120). -/
def validateLoop (now : Word32) : Nat → State → Result
  | 0, s => .next s
  | n + 1, s =>
    if s.cursor < 2 then .next s
    else if s.params.plausible s.headLen then
      if s.headLen + 2 ≤ s.cursor then
        if s.headChecksumOk then
          ((handOff now s.headFrame s).andThen (discardFrame (s.headLen + 2))).andThen (validateLoop now n)
        else (raise .badCrc s).andThen (validateLoop now n)
      else .next s
    else (raise .badLength s).andThen (validateLoop now n)

/-- VALIDATE(now) (R111). -/
def validateBuffer (now : Word32) (s : State) : Result := validateLoop now s.cursor s

/-- OVERFLOW (R118). -/
def discardIfFull (s : State) : Result := if s.cursor = s.params.cap then raise .bufferFull s else .next s

/-- DRAIN(now) (R119). -/
def drainIfStale (now : Word32) (s : State) : Result := if s.stale now then raise .staleBuffer s else .next s

/-! ### Reset -/

/-- What RESET does (R240): the buffer empty, the flags down, the stamps zero, `channels` unspecified (R34, log 3).
No event (R241); the parameters and the model's own fields stay. -/
def resetBlock (s : State) : State :=
  { s.emptied.freeChannelVector with
    linkUp := false, passthrough := false, lastChannelFrameTime := 0, lastByteTime := 0 }

end Sys2Proof.Machine
end

