-- ==== Sys2Proof/Machine/Buffer.lean ====
section
/-! DEFINITION. The meanings of the reassembler and buffer manager: APPEND, VALIDATE, SHIFT1, SHIFTN, OVERFLOW, DRAIN. -/

namespace Sys2Proof.Machine

/-- APPEND(b) (R110). -/
def execAppend (b : Byte) (s : State) : Result := appendByte b s

/-- VALIDATE(now) (R111). -/
def execValidate (now : Word32) (s : State) : Result := validateBuffer now s

/-- SHIFT1 (R116). -/
def execShift1 (s : State) : Result := discardOne s

/-- SHIFTN(n) (R117). -/
def execShiftN (n : Nat) (s : State) : Result := discardFrame n s

/-- OVERFLOW (R118). -/
def execOverflow (s : State) : Result := discardIfFull s

/-- DRAIN(now) (R119). -/
def execDrain (now : Word32) (s : State) : Result := drainIfStale now s

end Sys2Proof.Machine
end

