-- ==== Sys2Proof/Machine/Commands.lean ====
section
/-! DEFINITION. The meanings of the reset pin and of the eight command codes. -/

namespace Sys2Proof.Machine

/-- RESET (R240). -/
def execReset (s : State) : Result := .next (resetBlock s)

/-- NOP (R198). -/
def execNop (s : State) : Result := .next s

/-- RX_BYTE(b, now): the stamp, the mode test, then APPEND, VALIDATE, OVERFLOW (R195, R187). -/
def execRxByte (b : Byte) (now : Word32) (s : State) : Result :=
  let s := s.stampByte now
  if s.passthrough then .next (s.emit (.rawByte b))
  else ((appendByte b s).andThen (validateBuffer now)).andThen discardIfFull

/-- POLL(now): DRAIN, then LINK_CHECK, in both modes (R196, R190). -/
def execPoll (now : Word32) (s : State) : Result :=
  (drainIfStale now s).andThen fun s => .next (checkLink now s)

/-- SET_PASSTHROUGH(val, speed): TX_FLUSH, SET_LINE_SPEED when a speed is given, then the mode (R185). -/
def execSetPassthrough (val : Bool) (speed : Option Word32) (s : State) : Result :=
  let s := s.emit .txFlush
  match speed with
  | some v => .next ((s.emit (.setLineSpeed v)).setMode val)
  | none => .next (s.setMode val)

/-- QUEUE_FRAME(addr, type, payload, n), `n` the number of payload bytes (R175 to R178). -/
def execQueueFrame (addr type : Byte) (payload : List Byte) (s : State) : Result :=
  if s.txRefused payload.length then raise .txRefused s
  else .next (s.emit (.txWrite (Frame.build addr type payload).bytes))

/-- Command code 0b101 is reserved: refused (R81). -/
def execReserved5 (_ : State) : Result := .refused (.reservedCommandCode 5)

/-- Command code 0b110 is reserved: refused (R81). -/
def execReserved6 (_ : State) : Result := .refused (.reservedCommandCode 6)

/-- Command code 0b111 is reserved: refused (R81). -/
def execReserved7 (_ : State) : Result := .refused (.reservedCommandCode 7)

end Sys2Proof.Machine
end

