-- ==== Sys2Proof/Machine/Events.lean ====
section
/-! DEFINITION. The meanings of the ten event rows: the event joins the command's output list and nothing else changes
(R9 `emit`, R79; log 14). -/

namespace Sys2Proof.Machine

/-- RAW_BYTE(b) (R116, R187). -/
def execRawByte (b : Byte) (s : State) : Result := .next (s.emit (.rawByte b))

/-- FRAME_VALID(f) (R140). -/
def execFrameValid (f : List Byte) (s : State) : Result := .next (s.emit (.frameValid f))

/-- LINK_UP (R161). -/
def execLinkUp (s : State) : Result := .next (s.emit .linkUp)

/-- LINK_DOWN (R162). -/
def execLinkDown (s : State) : Result := .next (s.emit .linkDown)

/-- CHANNELS_UPDATED (R143). -/
def execChannelsUpdated (s : State) : Result := .next (s.emit .channelsUpdated)

/-- LINK_STATISTICS(p) (R147). -/
def execLinkStatistics (p : List Byte) (s : State) : Result := .next (s.emit (.linkStatistics p))

/-- GPS(p) (R148). -/
def execGps (p : List Byte) (s : State) : Result := .next (s.emit (.gps p))

/-- TX_WRITE(bytes) (R177, R178). -/
def execTxWrite (bytes : List Byte) (s : State) : Result := .next (s.emit (.txWrite bytes))

/-- TX_FLUSH (R186). -/
def execTxFlush (s : State) : Result := .next (s.emit .txFlush)

/-- SET_LINE_SPEED(v) (R186). -/
def execSetLineSpeed (v : Word32) (s : State) : Result := .next (s.emit (.setLineSpeed v))

end Sys2Proof.Machine
end

