-- ==== Sys2Proof/Machine/Handoff.lean ====
section
/-! DEFINITION. The meanings of the hand-off (DISPATCH, CH_DECODE), of the checksum engine (CRC8), of the link-heartbeat
detector (LINK_TOUCH, LINK_CHECK), and of the five frame classes. -/

namespace Sys2Proof.Machine

/-- DISPATCH(now): the hand-off of what stands at the head of the buffer, reported as `MemRead(0, len + 2)` (R140).
VALIDATE calls it on a valid frame only; on any other head the same pseudocode runs, and a byte that is not in the buffer
reads as its free value (log 11). -/
def execDispatch (now : Word32) (s : State) : Result := handOffAs (s.memRead 0 (s.headLen + 2)) now s.headFrame s

/-- LINK_TOUCH(now) (R161). -/
def execLinkTouch (now : Word32) (s : State) : Result := .next (touchLink now s)

/-- LINK_CHECK(now) (R162). -/
def execLinkCheck (now : Word32) (s : State) : Result := .next (checkLink now s)

/-- CRC8(bytes): the returned byte stands in `crcOut` (R100, log 12). -/
def execCrc8 (bytes : List Byte) (s : State) : Result := .next (s.setCrcOut (crc8 bytes))

/-- CH_DECODE on what stands at the head of the buffer: decoded from `buf[3 .. 24]`, unspecified when the declared length is
below 0x18 (R144 to R146; log 11). -/
def execChDecode (s : State) : Result := .next (decodeChannels s.headFrame.payload s)

/-- A channel-data frame for this address is handed on (R140, R143). -/
def execFrameChannels (f : Frame) (now : Word32) (s : State) : Result :=
  .next (handleChannels f.payload now (s.emit (.frameValid f.bytes)))

/-- A link-statistics frame for this address is handed on (R140, R147). -/
def execFrameLinkStats (f : Frame) (s : State) : Result :=
  .next ((s.emit (.frameValid f.bytes)).emit (.linkStatistics f.payload))

/-- A GPS frame for this address is handed on (R140, R148). -/
def execFrameGps (f : Frame) (s : State) : Result :=
  .next ((s.emit (.frameValid f.bytes)).emit (.gps f.payload))

/-- A frame of an unrecognised type for this address is handed on (R140, R149). -/
def execFrameUnknownType (f : Frame) (s : State) : Result := raise .unknownType (s.emit (.frameValid f.bytes))

/-- A frame for another address is handed on (R140, R141). -/
def execFrameNotLocal (f : Frame) (s : State) : Result := raise .notLocal (s.emit (.frameValid f.bytes))

end Sys2Proof.Machine
end

