-- ==== Sys2Proof/Machine/Dispatch.lean ====
section
/-! DEFINITION. The dispatch of an instruction to its meaning, one arm per constructor. -/

namespace Sys2Proof.Machine

def exec (i : Instr) (s : State) : Host.Outcome State Fault Refusal :=
  match i with
  | .reset => Sys2Proof.Machine.execReset s
  | .nop => Sys2Proof.Machine.execNop s
  | .rxByte b now => Sys2Proof.Machine.execRxByte b now s
  | .poll now => Sys2Proof.Machine.execPoll now s
  | .setPassthrough val speed => Sys2Proof.Machine.execSetPassthrough val speed s
  | .queueFrame addr type payload => Sys2Proof.Machine.execQueueFrame addr type payload s
  | .reserved5 => Sys2Proof.Machine.execReserved5 s
  | .reserved6 => Sys2Proof.Machine.execReserved6 s
  | .reserved7 => Sys2Proof.Machine.execReserved7 s
  | .append b => Sys2Proof.Machine.execAppend b s
  | .validate now => Sys2Proof.Machine.execValidate now s
  | .shift1 => Sys2Proof.Machine.execShift1 s
  | .shiftN n => Sys2Proof.Machine.execShiftN n s
  | .overflow => Sys2Proof.Machine.execOverflow s
  | .drain now => Sys2Proof.Machine.execDrain now s
  | .dispatch now => Sys2Proof.Machine.execDispatch now s
  | .linkTouch now => Sys2Proof.Machine.execLinkTouch now s
  | .linkCheck now => Sys2Proof.Machine.execLinkCheck now s
  | .crc8 bytes => Sys2Proof.Machine.execCrc8 bytes s
  | .chDecode => Sys2Proof.Machine.execChDecode s
  | .frameChannels f now => Sys2Proof.Machine.execFrameChannels f now s
  | .frameLinkStats f => Sys2Proof.Machine.execFrameLinkStats f s
  | .frameGps f => Sys2Proof.Machine.execFrameGps f s
  | .frameUnknownType f => Sys2Proof.Machine.execFrameUnknownType f s
  | .frameNotLocal f => Sys2Proof.Machine.execFrameNotLocal f s
  | .rawByte b => Sys2Proof.Machine.execRawByte b s
  | .frameValid f => Sys2Proof.Machine.execFrameValid f s
  | .linkUp => Sys2Proof.Machine.execLinkUp s
  | .linkDown => Sys2Proof.Machine.execLinkDown s
  | .channelsUpdated => Sys2Proof.Machine.execChannelsUpdated s
  | .linkStatistics p => Sys2Proof.Machine.execLinkStatistics p s
  | .gps p => Sys2Proof.Machine.execGps p s
  | .txWrite bytes => Sys2Proof.Machine.execTxWrite bytes s
  | .txFlush => Sys2Proof.Machine.execTxFlush s
  | .setLineSpeed v => Sys2Proof.Machine.execSetLineSpeed v s

end Sys2Proof.Machine
end

