-- ==== Sys2Proof/Machine/Step.lean ====
section
/-! DEFINITION. One step: the next instruction on the command port is accepted and run (R5, R59, R200). -/

namespace Sys2Proof.Machine

/-- The state in which an accepted instruction starts: an empty event list (R5), the port at what follows it. -/
def State.accept (s : State) (rest : List Beat) : State := { s with events := [], port := rest }

/-- One step.
With no whole command presented the block waits and emits nothing (R4, log 6). -/
def step (s : State) : Host.Outcome State Fault Refusal :=
  match decodePort s.port with
  | .ok (i, rest) => exec i (s.accept rest)
  | .error _ => .next (s.accept s.port)

/-- The host presents the table word's instruction so that the very next step runs it (log 10).
A command word goes to the front of the command port.
A frame word puts all but the last byte of its frame into the buffer, in framed mode, and that last byte, at time 0, to the
front of the port.
Any other word stands for nothing the block fetches, and leaves the state alone. -/
def State.withFetchWord (s : State) (nbits w : Nat) : State :=
  if nbits = 8 ∧ w < 8 then { s with port := tableBeats w ++ s.port }
  else if nbits = 24 ∧ (decodeTableWord nbits w).isSome then
    let bs := (tableFrame w).bytes
    { s with
      buf := Memory.ofBytesFrom 0 bs.dropLast
      cursor := bs.length - 1
      passthrough := false
      port := Beat.cmd 1 (tableFrame w).checksum 0 :: s.port }
  else s

end Sys2Proof.Machine
end

