-- ==== Sys2Proof/Safety.lean ====
section
/-! DEFINITION. What claims about runs are stated in: the invariant of the buffer, the bytes a run receives and reports,
the link edges it reports, runs of commands, the pseudo-commands, and the literal byte moves of the left shift. -/

namespace Sys2Proof.Machine

/-! ### The invariant -/

/-- Exactly the locations below `cursor` are listed (R21, R31). -/
abbrev State.Filled (s : State) : Prop := s.buf.map (·.1) = List.range s.cursor

/-- The quiescent form that holds at every command boundary (R35). -/
abbrev State.Quiescent (s : State) : Prop :=
  s.cursor < 2 ∨ (3 ≤ s.headLen ∧ s.headLen ≤ s.params.maxLen ∧ s.cursor < s.headLen + 2)

/-- The invariant of the buffer at a command boundary: canonical memory, filled up to the cursor, quiescent. -/
abbrev State.Inv (s : State) : Prop := Memory.wf s.buf ∧ s.Filled ∧ s.Quiescent

/-! ### Commands and runs -/

/-- The five commands that are codes of the command port (R78); RESET is the pin. -/
def commandCode : Instr → Bool
  | .nop | .rxByte _ _ | .poll _ | .setPassthrough _ _ | .queueFrame _ _ _ => true
  | .reset | .reserved5 | .reserved6 | .reserved7 | .append _ | .validate _ | .shift1 | .shiftN _ | .overflow
  | .drain _ | .dispatch _ | .linkTouch _ | .linkCheck _ | .crc8 _ | .chDecode | .frameChannels _ _
  | .frameLinkStats _ | .frameGps _ | .frameUnknownType _ | .frameNotLocal _ | .rawByte _ | .frameValid _ | .linkUp
  | .linkDown | .channelsUpdated | .linkStatistics _ | .gps _ | .txWrite _ | .txFlush | .setLineSpeed _ => false

/-- Runs a sequence of commands, each from an empty event list; answers the last state and all events in order (R59).
`none` when one of them does not answer a next state. -/
def runCommands : List Instr → State → Option (State × List Event)
  | [], s => some (s, [])
  | i :: is, s =>
    match exec i { s with events := [] } with
    | .next t =>
      match runCommands is t with
      | some (u, evs) => some (u, t.events ++ evs)
      | none => none
    | .fault _ => none
    | .refused _ => none

/-- FEED (R84). -/
def feed (bs : List Byte) (t : Word32) : List Instr := bs.map fun b => .rxByte b t

/-- SERVICE: one service call with one time value (R84, R197). -/
def service (bs : List Byte) (t : Word32) : List Instr := feed bs t ++ [.poll t]

/-- IDLE (R84). -/
def idle (t : Word32) : List Instr := service [] t

/-! ### Conservation of bytes (R63) -/

/-- The bytes an event surfaces: a raw byte, or a whole frame (R63). -/
def Event.reported : Event → List Byte
  | .rawByte b => [b]
  | .frameValid f => f
  | .linkUp | .linkDown | .channelsUpdated | .linkStatistics _ | .gps _ | .txWrite _ | .txFlush | .setLineSpeed _ => []

/-- The bytes an event list surfaces, in event order. -/
def reportedBytes (evs : List Event) : List Byte := evs.flatMap Event.reported

/-- The byte a command puts into the buffer: the one of an RX_BYTE in framed mode (R63). -/
def receivedByte (s : State) : Instr → List Byte
  | .rxByte b _ => if s.passthrough then [] else [b]
  | _ => []

/-- The bytes a command takes out of the buffer and reports; an RX_BYTE in passthrough mode reports a byte that was never
in the buffer (R63, R187). -/
def takenBytes (s : State) (i : Instr) (evs : List Event) : List Byte :=
  match i with
  | .rxByte _ _ => if s.passthrough then [] else reportedBytes evs
  | _ => reportedBytes evs

/-- Runs commands and keeps the two books of R63: what was received in framed mode, and what left the buffer reported. -/
def runLedger : List Instr → State → Option (State × List Byte × List Byte)
  | [], s => some (s, [], [])
  | i :: is, s =>
    match exec i { s with events := [] } with
    | .next t =>
      match runLedger is t with
      | some (u, recv, out) => some (u, receivedByte s i ++ recv, takenBytes s i t.events ++ out)
      | none => none
    | .fault _ => none
    | .refused _ => none

/-! ### Link edges (R163) -/

/-- The link events of an event list: `true` for LINK_UP, `false` for LINK_DOWN. -/
def linkEdges (evs : List Event) : List Bool :=
  evs.filterMap fun
    | .linkUp => some true
    | .linkDown => some false
    | _ => none

/-- Follows edges from a link state: the state after them, or `none` when an edge leads to the state that already holds. -/
def followEdges : Bool → List Bool → Option Bool
  | up, [] => some up
  | up, e :: es => if e = up then none else followEdges e es

/-! ### Valid frames (R74) -/

/-- R74, word for word: `f` is a valid frame. -/
abbrev ValidFrame (p : Params) (f : List Byte) : Prop :=
  5 ≤ f.length ∧ 3 ≤ (f.getD 1 0).toNat ∧ (f.getD 1 0).toNat ≤ p.maxLen ∧ f.length = (f.getD 1 0).toNat + 2 ∧
    f.getD ((f.getD 1 0).toNat + 1) 0 = crc8 ((f.drop 2).take ((f.getD 1 0).toNat - 1))

/-! ### Heartbeat frames (R160) -/

/-- The event reports a heartbeat frame: local address, channel-data type tag. -/
def reportsHeartbeat (p : Params) : Event → Bool
  | .frameValid f => decide (f[0]? = some p.localAddr ∧ f[2]? = some p.typeChannels)
  | _ => false

/-! ### The left shift as the byte moves of R53 -/

/-- `for i in i .. i+n-1 (ascending): buf[i] <- buf[i+k]`, one store at a time. -/
def moveDown (k : Nat) : Nat → Nat → State → State
  | 0, _, s => s
  | n + 1, i, s => moveDown k n (i + 1) { s with buf := Memory.write s.buf i (s.readByte (i + k)) }

/-- The left shift by `k` of R53, literally; the locations beyond the new cursor keep their residue. -/
def shiftByMoves (k : Nat) (s : State) : State :=
  { moveDown k (s.cursor - k) 0 s with cursor := s.cursor - k }

end Sys2Proof.Machine
end

