-- ==== Sys2Proof/Certificates/Slice0/Obligations.lean ====
section
/-! DEFINITION. The statements for the provers. -/

open Sys2Proof Sys2Proof.Machine

/-! ### Reset -/

/-- The state after reset (10_state.md section 10, R34; decision D15).
That an empty buffer reads as the free stale bytes is the model's choice (log 4). -/
def Obligations.ResetStateValues : Prop :=
  State.reset.cursor = 0 ∧ State.reset.linkUp = false ∧ State.reset.passthrough = false ∧
    State.reset.lastChannelFrameTime = 0 ∧ State.reset.lastByteTime = 0 ∧
    ∀ a, State.reset.readByte a = Config.staleByte a

/-- The RESET instruction, from any state (70_reset_and_hazards.md section 1, R240, R241; decisions D15, D16): buffer
empty, flags down, stamps zero, no event; the rest unchanged but for `channels`, which is unspecified (log 3).
That every location then reads as its free stale byte is the model's choice (log 4). -/
def Obligations.ResetClearsBlock : Prop :=
  ∀ s : State, ∃ t, exec .reset s = .next t ∧ t.events = s.events ∧ t.bytes = [] ∧
    (∀ a, t.readByte a = Config.staleByte a) ∧
    t = { s with
      buf := t.buf, cursor := 0, linkUp := false, passthrough := false, lastChannelFrameTime := 0, lastByteTime := 0,
      channels := t.channels, freeCount := t.freeCount }

/-- The reset pin overrides whatever command it is presented with, and abandons a QUEUE_FRAME of which `k` beats were
presented (R240 "overrides a command presented at the same time and abandons a command in progress"; the reading at beat
level is log 9; `k = 0` is the reset beat alone). -/
def Obligations.ResetPinOverridesPort : Prop :=
  ∀ (s : State) (addr type : Byte) (payload : List Byte) (k : Nat) (b : Beat) (rest : List Beat),
    payload.length ≤ 255 → k < (queueFrameBeats addr type payload).length → b.rst = true →
    s.port = (queueFrameBeats addr type payload).take k ++ b :: rest →
    step s = exec .reset { s with events := [], port := rest }

/-! ### A step -/

/-- A step runs the instruction the command port decodes to, from an empty event list, with the port at what follows it
(00_scope.md section 4, R5, R59). -/
def Obligations.StepRunsDecodedInstruction : Prop :=
  ∀ (s : State) (i : Instr) (rest : List Beat), decodePort s.port = .ok (i, rest) →
    step s = exec i { s with events := [], port := rest }

/-- A well-formed command at the head of the port, in the encoding of R78, is what the next step runs. -/
def Obligations.StepRunsPresentedCommand : Prop :=
  ∀ (s : State) (i : Instr) (bs rest : List Beat), i.wf s.params = true → encode i = .port bs → s.port = bs ++ rest →
    step s = exec i { s with events := [], port := rest }

/-- While a command is not wholly presented the block waits: no event, nothing changes (R4; the reading is log 6;
`k = 0` is the idle port).
And a command presented among the beats of a QUEUE_FRAME waits until the QUEUE_FRAME has been run (R200, U9; that the
QUEUE_FRAME goes on with its remaining beats is the model's reading, log 7). -/
def Obligations.StepWaitsForWholeCommand : Prop :=
  ∀ (s : State) (addr type : Byte) (payload : List Byte) (k : Nat), payload.length ≤ 255 →
    k < (queueFrameBeats addr type payload).length →
    (s.port = (queueFrameBeats addr type payload).take k → step s = .next { s with events := [] }) ∧
    ∀ (c : Beat) (rest : List Beat), 1 ≤ k → c.rst = false → c.op ≠ 0b100 →
      s.port = (queueFrameBeats addr type payload).take k ++ c :: ((queueFrameBeats addr type payload).drop k ++ rest) →
      step s = exec (.queueFrame addr type payload) { s with events := [], port := c :: rest }

/-! ### Encodings -/

/-- A few words written out from R70, R78, R79 and D2 decode to what they stand for. -/
def Obligations.WrittenWordsDecode : Prop :=
  decodePort [⟨true, 0b001, 0x00, 0x00000000⟩] = .ok (.reset, []) ∧
  decodePort [⟨false, 0b001, 0xC8, 0x000003E8⟩] = .ok (.rxByte 0xC8 1000, []) ∧
  decodePort [⟨false, 0b011, 0x02, 0x000668A0⟩] = .ok (.setPassthrough false (some 420000), []) ∧
  decodePort [⟨false, 0b100, 0xC8, 0⟩, ⟨false, 0b100, 0x08, 0⟩, ⟨false, 0b100, 0x01, 0⟩, ⟨false, 0b100, 0x4A, 0⟩] =
    .ok (.queueFrame 0xC8 0x08 [0x4A], []) ∧
  decode Params.default 7 (.wire [0xC8, 0x03, 0x16, 0x01, 0x5F]) =
    .ok (.frameChannels ⟨0xC8, 0x03, 0x16, [0x01], 0x5F⟩ 7) ∧
  decode Params.default 0 (.wire [0xEA, 0x03, 0x02, 0xAA, 0x0B]) = .ok (.frameNotLocal ⟨0xEA, 0x03, 0x02, [0xAA], 0x0B⟩) ∧
  decode Params.default 0 (.evt [⟨0xA, 0x000668A0, true, true⟩]) = .ok (.setLineSpeed 420000)

/-- Command port: decoding what a well-formed instruction encodes to gives it back, whatever beats follow (R78). -/
def Obligations.PortEncodingRoundTrip : Prop :=
  ∀ (p : Params) (i : Instr) (bs rest : List Beat), i.wf p = true → encode i = .port bs →
    decodePort (bs ++ rest) = .ok (i, rest)

/-- Wire: decoding the bytes of a well-formed frame-class instruction gives it back; the time of a channel-data frame is
the decoder's argument (R70, R140). -/
def Obligations.FrameEncodingRoundTrip : Prop :=
  ∀ (p : Params) (now : Word32) (i : Instr) (bs : List Byte), i.wf p = true → encode i = .wire bs →
    (∀ f t, i = .frameChannels f t → t = now) → decode p now (.wire bs) = .ok i

/-- Event port: decoding the beats of an event gives it back, whatever beats follow (R79, D2). -/
def Obligations.EventEncodingRoundTrip : Prop :=
  ∀ (p : Params) (e : Event) (rest : List EvtBeat), (Instr.ofEvent e).wf p = true →
    decodeEvent (encodeEvent e ++ rest) = .ok (e, rest)

/-- R74: the wire decoder accepts a byte sequence exactly when it is a valid frame; what it then gives carries exactly those
bytes and is well formed. -/
def Obligations.WireDecoderAcceptsValidFrames : Prop :=
  ∀ (p : Params) (now : Word32) (bs : List Byte),
    ((∃ i, decodeFrame p now bs = .ok i) ↔ ValidFrame p bs) ∧
    ∀ i, decodeFrame p now bs = .ok i → encode i = .wire bs ∧ i.wf p = true

/-! ### Checksum engine -/

/-- R100 and R101: the empty sequence gives zero; one more byte is XORed in and stepped eight times; a step shifts left and
XORs 0xD5 when bit 7 was set; zero bytes leave a zero register at zero; the worked examples. -/
def Obligations.Crc8FollowsItsSteps : Prop :=
  crc8 [] = 0 ∧
  (∀ (s : List Byte) (x : Byte), crc8 (s ++ [x]) = crcStep^[8] (crc8 s ^^^ x)) ∧
  (∀ c : Byte, c.getLsbD 7 = true → crcStep c = (c <<< 1) ^^^ 0xD5) ∧
  (∀ c : Byte, c.getLsbD 7 = false → crcStep c = c <<< 1) ∧
  (∀ n, crc8 (List.replicate n 0) = 0) ∧
  crc8 [0x16] = 0xD3 ∧
  [1, 2, 3, 4, 5, 6, 7, 8].map (fun n => crcStep^[n] 0x16) = [0x2C, 0x58, 0xB0, 0xB5, 0xBF, 0xAB, 0x83, 0xD3]

/-- R102: the 256-entry table, and the table form equals CRC8 (the entries are marked derived in the spec). -/
def Obligations.CrcTableForm : Prop :=
  (∀ v : Byte, crcTable.getD v.toNat 0 = crc8 [v]) ∧ ∀ s : List Byte, crc8ByTable s = crc8 s

/-- The laws of R103 (marked derived in the spec): composition, residue as a validity test, linearity, and detection of
every change of one bit of the covered bytes or of the checksum. -/
def Obligations.CrcLaws : Prop :=
  (∀ a b : List Byte, crc8 (a ++ b) = crcFrom (crc8 a) b) ∧
  (∀ (s : List Byte) (c : Byte), crc8 (s ++ [c]) = 0 ↔ c = crc8 s) ∧
  (∀ a b : List Byte, a.length = b.length → crc8 (List.zipWith (· ^^^ ·) a b) = crc8 a ^^^ crc8 b) ∧
  (∀ (a b : List Byte) (x : Byte) (k : Nat), k < 8 → crc8 (a ++ (x ^^^ BitVec.twoPow 8 k) :: b) ≠ crc8 (a ++ x :: b)) ∧
  (∀ (p : Params) (f : Frame) (k : Nat), k < 8 → f.valid p = true →
    ({ f with checksum := f.checksum ^^^ BitVec.twoPow 8 k } : Frame).valid p = false) ∧
  ∀ (p : Params) (f : Frame) (a : Byte), ({ f with destinationAddress := a } : Frame).valid p = f.valid p

/-- CRC8 as an instruction returns the checksum in `crcOut` and does nothing else (R100; where the result stands is the
model's choice, log 12). -/
def Obligations.Crc8InstructionReturns : Prop :=
  ∀ (s : State) (bs : List Byte), exec (.crc8 bs) s = .next { s with crcOut := crc8 bs }

/-! ### Reassembler and buffer manager -/

/-- R110: APPEND stores the byte at the cursor and adds one; every other location and all other state unchanged; its
precondition holds at every command boundary. -/
def Obligations.AppendStoresByte : Prop :=
  ∀ (s : State) (b : Byte), (s.Inv → s.cursor < s.params.cap) ∧
    (s.cursor < s.params.cap →
      ∃ t, exec (.append b) s = .next t ∧ t.readByte s.cursor = b ∧ (∀ a, a ≠ s.cursor → t.readByte a = s.readByte a) ∧
        t = { s with buf := t.buf, cursor := s.cursor + 1 })

/-- R116: SHIFT1 emits the byte at index 0, moves every other valid byte down by one and subtracts one. -/
def Obligations.Shift1SurfacesLeadingByte : Prop :=
  ∀ s : State, 1 ≤ s.cursor → s.cursor ≤ s.params.cap →
    ∃ t, exec .shift1 s = .next t ∧ (∀ i, i + 1 < s.cursor → t.readByte i = s.readByte (i + 1)) ∧
      t = { s with buf := t.buf, cursor := s.cursor - 1, events := s.events ++ [.rawByte (s.readByte 0)] }

/-- SHIFTN moves the bytes after the frame down by `n` and subtracts `n`; no event (41_reassembler.md "SHIFTN", R117).
VALIDATE's `n` is at least 5; that a smaller `n` runs the same moves is the model's reading (log 11). -/
def Obligations.ShiftNDiscardsFrame : Prop :=
  ∀ (s : State) (n : Nat), n ≤ s.cursor → s.cursor ≤ s.params.cap →
    ∃ t, exec (.shiftN n) s = .next t ∧ (∀ i, i + n < s.cursor → t.readByte i = s.readByte (i + n)) ∧
      t = { s with buf := t.buf, cursor := s.cursor - n }

/-- R53: the ascending byte moves give the suffix from index `k`, and so does the shift that SHIFT1 and SHIFTN use; with
`k = cursor` both leave `cursor = 0`. -/
def Obligations.LeftShiftIsSuffix : Prop :=
  ∀ (s : State) (k : Nat), 1 ≤ k → k ≤ s.cursor →
    (shiftByMoves k s).bytes = s.bytes.drop k ∧ (shiftByMoves k s).cursor = s.cursor - k ∧
    (s.shifted k).bytes = s.bytes.drop k ∧ (s.shifted k).cursor = s.cursor - k ∧
    (k = s.cursor → (shiftByMoves k s).buf = s.buf)

/-- MODEL'S CHOICE (log 4; R31 and U1 leave it open): what lies beyond the new cursor after a discard is scrubbed, so it
reads as the free stale byte (a SHIFTN of 0 bytes discards nothing). -/
def Obligations.DiscardsScrubStaleLocations : Prop :=
  ∀ (s t : State) (i : Instr), (i = .shift1 ∨ (∃ n, n ≠ 0 ∧ i = .shiftN n) ∨ (i = .overflow ∧ s.cursor = s.params.cap)) →
    exec i s = .next t → ∀ a, t.cursor ≤ a → t.readByte a = Config.staleByte a

/-- MODEL'S CHOICE (log 11): APPEND, SHIFT1 and SHIFTN called where the location they write or the cursor they would leave
does not exist (outside the preconditions of R110, R116, R117) stop with the fault named for it. -/
def Obligations.InternalOperationsStopOutsidePreconditions : Prop :=
  (∀ (s : State) (b : Byte), s.params.cap ≤ s.cursor → exec (.append b) s = .fault .appendToFullBuffer) ∧
  (∀ s : State, s.cursor = 0 → exec .shift1 s = .fault .shiftOutsideBuffer) ∧
  ∀ (s : State) (n : Nat), s.cursor < n → exec (.shiftN n) s = .fault .shiftOutsideBuffer

/-- OVERFLOW empties a full buffer silently and leaves any other state alone (41_reassembler.md "OVERFLOW", R118;
decision D11). -/
def Obligations.OverflowDiscardsFullBuffer : Prop :=
  ∀ s : State,
    (s.cursor = s.params.cap → exec .overflow s = .next { s with buf := [], cursor := 0 }) ∧
    (s.cursor ≠ s.params.cap → exec .overflow s = .next s)

/-- R111, R112, R115: VALIDATE is the loop over its four steps, each written as the internal operations it calls. -/
def Obligations.ValidateFollowsItsSteps : Prop :=
  ∀ (s : State) (now : Word32), s.cursor ≤ s.params.cap →
    (s.cursor < 2 → exec (.validate now) s = .next s) ∧
    (2 ≤ s.cursor → (s.headLen < 3 ∨ s.params.maxLen < s.headLen) →
      exec (.validate now) s = Result.andThen (exec .shift1 s) (exec (.validate now))) ∧
    (2 ≤ s.cursor → 3 ≤ s.headLen → s.headLen ≤ s.params.maxLen → s.headLen + 2 ≤ s.cursor →
      crc8 (s.memRead 2 (s.headLen - 1)) = s.readByte (s.headLen + 1) →
      exec (.validate now) s =
        Result.andThen (Result.andThen (exec (.dispatch now) s) (exec (.shiftN (s.headLen + 2)))) (exec (.validate now))) ∧
    (2 ≤ s.cursor → 3 ≤ s.headLen → s.headLen ≤ s.params.maxLen → s.headLen + 2 ≤ s.cursor →
      crc8 (s.memRead 2 (s.headLen - 1)) ≠ s.readByte (s.headLen + 1) →
      exec (.validate now) s = Result.andThen (exec .shift1 s) (exec (.validate now))) ∧
    (2 ≤ s.cursor → 3 ≤ s.headLen → s.headLen ≤ s.params.maxLen → s.cursor < s.headLen + 2 →
      exec (.validate now) s = .next s)

/-- VALIDATE terminates in quiescent form, and writes only the buffer, the cursor, what a hand-off writes, and events
(41_reassembler.md R111, R120; 10_state.md R35; both marked derived in the spec). -/
def Obligations.ValidateEndsQuiescent : Prop :=
  ∀ (s : State) (now : Word32), s.cursor ≤ s.params.cap →
    ∃ t, exec (.validate now) s = .next t ∧ t.Quiescent ∧ (s.Filled → t.Filled) ∧ t.cursor ≤ s.cursor ∧
      (∃ evs, t.events = s.events ++ evs) ∧
      t = { s with
        buf := t.buf, cursor := t.cursor, linkUp := t.linkUp, lastChannelFrameTime := t.lastChannelFrameTime,
        channels := t.channels, events := t.events, freeCount := t.freeCount }

/-- OVERFLOW never fires: after VALIDATE the buffer is not full (R126, marked derived in the spec). -/
def Obligations.OverflowNeverFires : Prop :=
  ∀ (s t : State) (now : Word32), s.cursor ≤ s.params.cap → exec (.validate now) s = .next t →
    t.cursor < t.params.cap ∧ exec .overflow t = .next t

/-- R119: DRAIN surfaces every buffered byte in order and ends empty when more than the threshold has elapsed, and does
nothing otherwise; it touches no flag and no stamp, in either mode. -/
def Obligations.DrainSurfacesStaleBytes : Prop :=
  ∀ (s : State) (now : Word32), s.cursor ≤ s.params.cap →
    (0 < s.cursor → s.params.packetTimeoutMs < (now - s.lastByteTime).toNat →
      exec (.drain now) s = .next { s with buf := [], cursor := 0, events := s.events ++ s.bytes.map .rawByte }) ∧
    (s.cursor = 0 ∨ (now - s.lastByteTime).toNat ≤ s.params.packetTimeoutMs → exec (.drain now) s = .next s)

/-- R125: the byte that shows an oversized length is followed at once by the discard of the leading byte, and stays as the
new leading byte; no frame with an oversized length is ever reported. -/
def Obligations.OversizedLengthNeverAccepted : Prop :=
  (∀ (s : State) (b : Byte) (now : Word32), s.passthrough = false → s.cursor = 1 → s.params.maxLen < b.toNat →
    ∃ t, exec (.rxByte b now) s = .next t ∧ t.bytes = [b] ∧
      t = { s with buf := t.buf, lastByteTime := now, events := s.events ++ [.rawByte (s.readByte 0)] }) ∧
  ∀ (s t : State) (f : List Byte), step s = .next t → Event.frameValid f ∈ t.events →
    (f.getD 1 0).toNat ≤ s.params.maxLen

/-! ### Hand-off -/

/-- DISPATCH completes in every state: it is the frame-class instruction of the head frame, but reports the bytes
`MemRead(0, len + 2)`, which are the head frame's own from a length byte of 2 on; the buffer is not written; on a valid head
frame that instruction is well formed (42_dispatcher.md "DISPATCH", R140 to R142; decision D17).
That it runs on a head that is no valid frame, with free values for bytes the buffer does not hold, is the model's reading
of the pseudocode (log 11). -/
def Obligations.DispatchRunsFrameClass : Prop :=
  ∀ (s : State) (now : Word32),
    ∃ t u evs, exec (.dispatch now) s = .next t ∧ exec (frameInstr s.params now s.headFrame) s = .next u ∧
      t.events = s.events ++ .frameValid (s.memRead 0 (s.headLen + 2)) :: evs ∧
      u.events = s.events ++ .frameValid s.headFrame.bytes :: evs ∧ t = { u with events := t.events } ∧
      (2 ≤ s.headLen → s.headFrame.bytes = s.memRead 0 (s.headLen + 2)) ∧
      (s.headValid = true → (frameInstr s.params now s.headFrame).wf s.params = true) ∧
      (∀ a, t.readByte a = s.readByte a) ∧ t.cursor = s.cursor

/-- A channel-data frame, whatever its length: FRAME_VALID, the link touched, CHANNELS_UPDATED, the channels overwritten
(42_dispatcher.md R143, R146, decisions D19, D23); with fewer than 22 payload bytes the channels are free values (log 3). -/
def Obligations.FrameChannelsEffect : Prop :=
  ∀ (s : State) (f : Frame) (now : Word32),
    ∃ t, exec (.frameChannels f now) s = .next t ∧
      (22 ≤ f.payload.length → (∀ i : Fin 16, t.channels[i] = rescale s.params (rawChannel f.payload i.val)) ∧
        t.freeCount = s.freeCount) ∧
      t = { s with
        channels := t.channels, freeCount := t.freeCount, lastChannelFrameTime := now, linkUp := true,
        events := s.events ++ [.frameValid f.bytes] ++ (if s.linkUp then [] else [.linkUp]) ++ [.channelsUpdated] }

/-- Link-statistics and GPS frames: FRAME_VALID, then the payload bytes verbatim; no state changes (42_dispatcher.md R147,
R148; decision D22). -/
def Obligations.RecordFramesForwardPayload : Prop :=
  ∀ (s : State) (f : Frame),
    exec (.frameLinkStats f) s =
      .next { s with events := s.events ++ [.frameValid f.bytes, .linkStatistics f.payload] } ∧
    exec (.frameGps f) s = .next { s with events := s.events ++ [.frameValid f.bytes, .gps f.payload] }

/-- R141, R149: a frame for another address, or of an unrecognised type, causes FRAME_VALID and nothing else, and is still
consumed from the buffer. -/
def Obligations.IgnoredFramesAreConsumed : Prop :=
  (∀ (s : State) (f : Frame),
    exec (.frameNotLocal f) s = .next { s with events := s.events ++ [.frameValid f.bytes] } ∧
    exec (.frameUnknownType f) s = .next { s with events := s.events ++ [.frameValid f.bytes] }) ∧
  ∀ (s : State) (now : Word32), s.headValid = true → s.cursor ≤ s.params.cap →
    (s.readByte 0 ≠ s.params.localAddr ∨
      (s.readByte 2 ≠ s.params.typeChannels ∧ s.readByte 2 ≠ s.params.typeLinkStats ∧ s.readByte 2 ≠ s.params.typeGps)) →
    ∃ t, Result.andThen (exec (.dispatch now) s) (exec (.shiftN (s.headLen + 2))) = .next t ∧
      t.bytes = s.bytes.drop (s.headLen + 2) ∧
      t = { s with
        buf := t.buf, cursor := s.cursor - (s.headLen + 2),
        events := s.events ++ [.frameValid (s.bytes.take (s.headLen + 2))] }

/-- CH_DECODE completes in every state and overwrites the channel vector and nothing else: decoded from `buf[3 .. 24]` at a
declared length of 0x18 or more, free values below it (42_dispatcher.md R144 to R146, decisions D20, D21, D23; log 3).
That it runs on a head that is no valid frame is the model's reading (log 11). -/
def Obligations.ChDecodeWritesChannels : Prop :=
  ∀ s : State,
    ∃ t, exec .chDecode s = .next t ∧
      (0x18 ≤ s.headLen → (∀ i : Fin 16, t.channels[i] = rescale s.params (rawChannel (s.memRead 3 22) i.val)) ∧
        t.freeCount = s.freeCount) ∧
      t = { s with channels := t.channels, freeCount := t.freeCount }

/-- The unpack bit by bit: bit `j` of channel `i` is bit `(11 i + j) mod 8` of payload byte `(11 i + j) / 8`
(30_encoding.md R77, 42_dispatcher.md R144; general knowledge in the spec, decision D21). -/
def Obligations.ChannelBitsUnpacked : Prop :=
  ∀ (payload : List Byte) (i j : Nat), 22 ≤ payload.length → i < 16 →
    rawChannel payload i < 2048 ∧
    (j < 11 → (rawChannel payload i).testBit j = (payload.getD ((11 * i + j) / 8) 0).getLsbD ((11 * i + j) % 8))

/-- The rescale is exact at the two ends of the wire domain and non-decreasing, for any constants in order; with the
defaults it maps `0 .. 2047` into `896 .. 2143`, reaching both (42_dispatcher.md R145; decision D20). -/
def Obligations.RescaleExactAndMonotone : Prop :=
  (∀ (p : Params) (r : Nat), (r : Int) = p.chInMin → rescale p r = p.chOutMin) ∧
  (∀ (p : Params) (r : Nat), (r : Int) = p.chInMax → rescale p r = p.chOutMax) ∧
  (∀ (p : Params) (a b : Nat), p.chInMin < p.chInMax → p.chOutMin ≤ p.chOutMax → a ≤ b → rescale p a ≤ rescale p b) ∧
  (∀ r, r ≤ 2047 → 896 ≤ rescale Params.default r ∧ rescale Params.default r ≤ 2143) ∧
  rescale Params.default 0 = 896 ∧ rescale Params.default 171 = 1000 ∧ rescale Params.default 2047 = 2143

/-- The big-endian assembly of R55 (the consumer's; 20_memory.md section 3): each further byte is less significant. -/
def Obligations.BigEndianFieldAssembly : Prop :=
  ∀ (payload : List Byte) (o w : Nat), o + w ≤ payload.length →
    bigEndianField payload o w =
      ((List.range w).map fun j => (payload.getD (o + j) 0).toNat * 2 ^ (8 * (w - 1 - j))).sum

/-! ### Link-heartbeat detector -/

/-- LINK_TOUCH writes the stamp always, the flag and LINK_UP on the edge only (43_link_state.md R161; decision D19). -/
def Obligations.LinkTouchEffect : Prop :=
  ∀ (s : State) (now : Word32),
    (s.linkUp = false → exec (.linkTouch now) s =
      .next { s with lastChannelFrameTime := now, linkUp := true, events := s.events ++ [.linkUp] }) ∧
    (s.linkUp = true → exec (.linkTouch now) s = .next { s with lastChannelFrameTime := now })

/-- R162: LINK_CHECK takes the link down, with LINK_DOWN, when it is up and more than the threshold has elapsed, and does
nothing otherwise; it runs in POLL after DRAIN, and no RX_BYTE takes the link down. -/
def Obligations.LinkCheckEffect : Prop :=
  ∀ (s : State) (now : Word32),
    (s.linkUp = true → s.params.failsafeMs < (now - s.lastChannelFrameTime).toNat →
      exec (.linkCheck now) s = .next { s with linkUp := false, events := s.events ++ [.linkDown] }) ∧
    (s.linkUp = false ∨ (now - s.lastChannelFrameTime).toNat ≤ s.params.failsafeMs →
      exec (.linkCheck now) s = .next s) ∧
    exec (.poll now) s = Result.andThen (exec (.drain now) s) (exec (.linkCheck now)) ∧
    ∀ (b : Byte) (t : State), exec (.rxByte b now) s = .next t → s.linkUp = true → t.linkUp = true

/-- In any run of commands from a state with the link down, LINK_UP and LINK_DOWN alternate strictly, beginning with
LINK_UP; the flag is up exactly when the last link event was LINK_UP, and the counts differ by it (R163, marked derived in
the spec). -/
def Obligations.LinkEventsAlternate : Prop :=
  ∀ (cmds : List Instr) (s u : State) (evs : List Event), (∀ i ∈ cmds, commandCode i = true) → s.linkUp = false →
    runCommands cmds s = some (u, evs) →
    followEdges false (linkEdges evs) = some u.linkUp ∧
    (linkEdges evs).count true = (linkEdges evs).count false + (if u.linkUp then 1 else 0)

/-- The link rises only in a step that reports a heartbeat frame, which then stamps the time of that RX_BYTE; it falls only
in POLL and RESET (10_state.md R24, R25; 43_link_state.md R166). -/
def Obligations.LinkChangesOnlyByItsRules : Prop :=
  ∀ (s t : State) (i : Instr) (rest : List Beat), decodePort s.port = .ok (i, rest) → step s = .next t →
    ((s.linkUp = false ∧ t.linkUp = true) ∨ (t.lastChannelFrameTime ≠ s.lastChannelFrameTime ∧ i ≠ .reset) →
      (∃ e ∈ t.events, reportsHeartbeat s.params e = true) ∧ ∃ b, i = .rxByte b t.lastChannelFrameTime) ∧
    (s.linkUp = true → t.linkUp = false → i = .reset ∨ ∃ now, i = .poll now)

/-! ### Commands -/

/-- NOP reads and writes nothing and emits nothing (46_service_cycle.md R198; decision D3). -/
def Obligations.NopChangesNothing : Prop := ∀ s : State, exec .nop s = .next s

/-- R187: in passthrough mode RX_BYTE emits the byte and refreshes the byte stamp, and nothing else. -/
def Obligations.RxByteBypassesInPassthrough : Prop :=
  ∀ (s : State) (b : Byte) (now : Word32), s.passthrough = true →
    exec (.rxByte b now) s = .next { s with lastByteTime := now, events := s.events ++ [.rawByte b] }

/-- In framed mode RX_BYTE stamps the time, then runs APPEND, VALIDATE and OVERFLOW; it completes in every state with room
for the byte, in quiescent form, and leaves the mode alone (46_service_cycle.md R195; decision D12). -/
def Obligations.RxByteFramedEffect : Prop :=
  ∀ (s : State) (b : Byte) (now : Word32), s.passthrough = false → s.cursor < s.params.cap →
    ∃ t, exec (.rxByte b now) s = .next t ∧
      Result.andThen (Result.andThen (exec (.append b) { s with lastByteTime := now }) (exec (.validate now))) (exec .overflow) =
        .next t ∧
      t.Quiescent ∧ (∃ evs, t.events = s.events ++ evs) ∧
      t = { s with
        buf := t.buf, cursor := t.cursor, linkUp := t.linkUp, lastChannelFrameTime := t.lastChannelFrameTime,
        lastByteTime := now, channels := t.channels, events := t.events, freeCount := t.freeCount }

/-- The state table of one RX_BYTE in framed mode (R122, marked derived in the spec): Empty to Accumulating; Accumulating to
Length-known or, on an implausible byte, to itself with the old byte surfaced; Length-known to itself, or to Empty with the
frame reported and its class's effect. -/
def Obligations.RxByteStateTable : Prop :=
  ∀ (s : State) (b : Byte) (now : Word32), s.passthrough = false → s.Quiescent →
    ∃ t, exec (.rxByte b now) s = .next t ∧
      (s.reassemblerState = .empty → t.reassemblerState = .accumulating ∧ t.events = s.events ∧ t.bytes = [b]) ∧
      (s.reassemblerState = .accumulating → 3 ≤ b.toNat → b.toNat ≤ s.params.maxLen →
        t.reassemblerState = .lengthKnown ∧ t.events = s.events ∧ t.bytes = s.bytes ++ [b]) ∧
      (s.reassemblerState = .accumulating → (b.toNat < 3 ∨ s.params.maxLen < b.toNat) →
        t.reassemblerState = .accumulating ∧ t.events = s.events ++ [.rawByte (s.readByte 0)] ∧ t.bytes = [b]) ∧
      (s.reassemblerState = .lengthKnown → s.cursor + 1 < s.headLen + 2 →
        t.reassemblerState = .lengthKnown ∧ t.events = s.events ∧ t.bytes = s.bytes ++ [b]) ∧
      (s.reassemblerState = .lengthKnown → s.cursor + 1 = s.headLen + 2 →
        b = crc8 (s.memRead 2 (s.headLen - 1)) →
        t.reassemblerState = .empty ∧ ∃ evs, t.events = s.events ++ .frameValid (s.bytes ++ [b]) :: evs ∧
          reportedBytes evs = []) ∧
      (s.reassemblerState = .lengthKnown → s.cursor + 1 = s.headLen + 2 →
        b ≠ crc8 (s.memRead 2 (s.headLen - 1)) →
        ∃ evs, t.events = s.events ++ .rawByte (s.readByte 0) :: evs)

/-- R196: POLL is DRAIN then LINK_CHECK, in both modes; it completes, takes the link at most down, writes only the buffer,
the flag and events, and a second POLL at the same time changes nothing and emits nothing. -/
def Obligations.PollDrainsThenChecksLink : Prop :=
  ∀ (s : State) (now : Word32), s.cursor ≤ s.params.cap →
    ∃ t, exec (.poll now) s = .next t ∧
      Result.andThen (exec (.drain now) s) (exec (.linkCheck now)) = .next t ∧
      (s.linkUp = false → t.linkUp = false) ∧
      (∃ raws downs, t.events = s.events ++ raws ++ downs ∧ (raws = [] ∨ raws = s.bytes.map .rawByte) ∧
        (downs = [] ∨ downs = [.linkDown])) ∧
      t = { s with buf := t.buf, cursor := t.cursor, linkUp := t.linkUp, events := t.events } ∧
      exec (.poll now) t = .next t

/-- A byte restarts the packet timer: right after an RX_BYTE that completes, a DRAIN at the same time changes nothing
(46_service_cycle.md R195, R197; 70_reset_and_hazards.md R253). -/
def Obligations.DrainRightAfterByteDoesNothing : Prop :=
  ∀ (s t : State) (b : Byte) (now : Word32), exec (.rxByte b now) s = .next t → exec (.drain now) t = .next t

/-- SET_PASSTHROUGH: TX_FLUSH, SET_LINE_SPEED when a speed is given, then the mode; the buffer is kept
(45_passthrough.md R185, R186, R188; decisions D13, D14). -/
def Obligations.SetPassthroughEffect : Prop :=
  ∀ (s : State) (val : Bool) (v : Word32),
    exec (.setPassthrough val none) s = .next { s with passthrough := val, events := s.events ++ [.txFlush] } ∧
    exec (.setPassthrough val (some v)) s =
      .next { s with passthrough := val, events := s.events ++ [.txFlush, .setLineSpeed v] }

/-- R177, R178: QUEUE_FRAME with the link up, in framed mode and within the size limit emits one TX_WRITE of the `n + 4`
bytes address, `n + 2`, type, payload, checksum, and changes nothing else. -/
def Obligations.QueueFrameWritesFrame : Prop :=
  ∀ (s : State) (addr type : Byte) (payload : List Byte), s.linkUp = true → s.passthrough = false →
    payload.length ≤ s.params.maxPayload →
    ∃ len : Byte, len.toNat = payload.length + 2 ∧
      exec (.queueFrame addr type payload) s =
        .next { s with events := s.events ++
          [.txWrite ([addr, len, type] ++ payload ++ [crc8 ([type] ++ payload)])] } ∧
      ([addr, len, type] ++ payload ++ [crc8 ([type] ++ payload)]).length = payload.length + 4

/-- R176: any one of link down, passthrough active, payload too long makes QUEUE_FRAME a no-op; with none of them it emits
(a payload of exactly the maximum size is accepted). -/
def Obligations.QueueFrameSilentNoOp : Prop :=
  ∀ (s : State) (addr type : Byte) (payload : List Byte),
    ((s.linkUp = false ∨ s.passthrough = true ∨ s.params.maxPayload < payload.length) →
      exec (.queueFrame addr type payload) s = .next s) ∧
    (¬(s.linkUp = false ∨ s.passthrough = true ∨ s.params.maxPayload < payload.length) →
      ∃ x, exec (.queueFrame addr type payload) s = .next { s with events := s.events ++ [.txWrite x] })

/-- R189: from the command after SET_PASSTHROUGH(1) to the command after SET_PASSTHROUGH(0), whatever commands run between,
QUEUE_FRAME is a no-op. -/
def Obligations.EncoderInertInPassthrough : Prop :=
  ∀ (s t u : State) (speed : Option Word32) (cmds : List Instr) (evs : List Event) (addr type : Byte)
    (payload : List Byte), exec (.setPassthrough true speed) s = .next t →
    (∀ i ∈ cmds, commandCode i = true ∧ ∀ v sp, i ≠ .setPassthrough v sp) → runCommands cmds t = some (u, evs) →
    exec (.queueFrame addr type payload) u = .next u

/-- R81: the command codes 0b101, 0b110, 0b111 are refused, at every state. -/
def Obligations.ReservedCodesRefused : Prop :=
  ∀ (s : State) (b : Beat) (rest : List Beat), s.port = b :: rest → b.rst = false →
    (b.op = 0b101 ∨ b.op = 0b110 ∨ b.op = 0b111) →
    step s = .refused (.reservedCommandCode b.op) ∧
    exec .reserved5 s = .refused (.reservedCommandCode 0b101) ∧
    exec .reserved6 s = .refused (.reservedCommandCode 0b110) ∧
    exec .reserved7 s = .refused (.reservedCommandCode 0b111)

/-- The ten event rows rawByte, frameValid, linkUp, linkDown, channelsUpdated, linkStatistics, gps, txWrite, txFlush and
setLineSpeed: each appends its event and changes nothing else (00_scope.md section 7 `emit`, R79; log 14). -/
def Obligations.EventInstructionsAppendTheirEvent : Prop :=
  ∀ (s : State) (b : Byte) (q : List Byte) (v : Word32),
    exec (.rawByte b) s = .next { s with events := s.events ++ [.rawByte b] } ∧
    exec (.frameValid q) s = .next { s with events := s.events ++ [.frameValid q] } ∧
    exec .linkUp s = .next { s with events := s.events ++ [.linkUp] } ∧
    exec .linkDown s = .next { s with events := s.events ++ [.linkDown] } ∧
    exec .channelsUpdated s = .next { s with events := s.events ++ [.channelsUpdated] } ∧
    exec (.linkStatistics q) s = .next { s with events := s.events ++ [.linkStatistics q] } ∧
    exec (.gps q) s = .next { s with events := s.events ++ [.gps q] } ∧
    exec (.txWrite q) s = .next { s with events := s.events ++ [.txWrite q] } ∧
    exec .txFlush s = .next { s with events := s.events ++ [.txFlush] } ∧
    exec (.setLineSpeed v) s = .next { s with events := s.events ++ [.setLineSpeed v] }

/-! ### The whole machine -/

/-- The invariant holds after reset. -/
def Obligations.InvariantAtReset : Prop := State.reset.Inv

/-- Every step keeps the invariant: canonical memory, filled up to the cursor, quiescent (R35, marked derived in the
spec; R31). -/
def Obligations.StepKeepsInvariant : Prop := ∀ s t : State, s.Inv → step s = .next t → t.Inv

/-- Under the invariant the cursor is at most `CAP - 1`, fits eight bits, and the reassembler is never in its transient
Complete state (R22, R23, R35, partly marked derived in the spec). -/
def Obligations.InvariantBoundsCursor : Prop :=
  ∀ s : State, s.Inv → s.cursor + 1 ≤ s.params.cap ∧ s.cursor < 256 ∧ s.reassemblerState ≠ .complete

/-- Under the invariant every command and RESET completes, and a step stops only on a reserved code (R210, R81). -/
def Obligations.CommandsAlwaysComplete : Prop :=
  (∀ (s : State) (i : Instr), s.Inv → commandCode i = true ∨ i = .reset → ∃ t, exec i s = .next t) ∧
  ∀ s : State, s.Inv → (∃ t, step s = .next t) ∨
    ∃ b rest, s.port = b :: rest ∧ b.rst = false ∧ (b.op = 0b101 ∨ b.op = 0b110 ∨ b.op = 0b111) ∧
      step s = .refused (.reservedCommandCode b.op)

/-- Conservation of bytes (R63, marked derived in the spec): over any run of commands, what was in the buffer and what was
received in framed mode is, in order, what was reported and what is in the buffer. -/
def Obligations.BytesConserved : Prop :=
  ∀ (cmds : List Instr) (s : State), (∀ i ∈ cmds, commandCode i = true) → s.Inv →
    ∃ u recv out, runLedger cmds s = some (u, recv, out) ∧ s.bytes ++ recv = out ++ u.bytes

/-- Every FRAME_VALID event of every step carries a valid frame (R74, R140). -/
def Obligations.ReportedFramesAreValid : Prop :=
  ∀ (s t : State) (f : List Byte), step s = .next t → Event.frameValid f ∈ t.events → ValidFrame s.params f

/-- Framing correctness (R123, marked derived in the spec): a valid frame fed byte by byte into an empty buffer in framed
mode gives no event before its last byte, then FRAME_VALID and its class's events, and an empty buffer. -/
def Obligations.FramingCorrect : Prop :=
  ∀ (s : State) (bs : List Byte) (i : Instr) (now : Word32), s.passthrough = false → s.cursor = 0 →
    decodeFrame s.params now bs = .ok i →
    (∃ v, runCommands (feed bs.dropLast now) s = some (v, []) ∧ v.bytes = bs.dropLast) ∧
    ∃ t u, exec i { s with events := [], lastByteTime := now } = .next t ∧
      runCommands (feed bs now) s = some (u, t.events) ∧ u.cursor = 0 ∧ (∃ evs, t.events = .frameValid bs :: evs) ∧
      u = { t with buf := u.buf, cursor := 0, events := u.events }

/-- Encoder round trip (R179, marked derived in the spec): what QUEUE_FRAME writes for a payload of 1 to `MAX_LEN - 2` bytes
is a valid frame with that type and payload, and fed to a block with an empty buffer in framed mode it is reported whole. -/
def Obligations.EncoderRoundTrip : Prop :=
  ∀ (s t u : State) (addr type : Byte) (payload x : List Byte) (now : Word32),
    exec (.queueFrame addr type payload) s = .next t → t.events = s.events ++ [.txWrite x] → 1 ≤ payload.length →
    u.passthrough = false → u.cursor = 0 → u.params = s.params →
    ValidFrame s.params x ∧ x.getD 2 0 = type ∧ (x.drop 3).take payload.length = payload ∧
    ∃ v evs, runCommands (feed x now) u = some (v, .frameValid x :: evs) ∧ v.cursor = 0

/-- Who writes what (R7, R26, R27, R36; partly marked derived in the spec): no step changes the parameters; the mode changes
only by SET_PASSTHROUGH and RESET, the byte stamp only by RX_BYTE and RESET, the buffer never by NOP, SET_PASSTHROUGH or
QUEUE_FRAME. -/
def Obligations.StateWritersAreListed : Prop :=
  ∀ (s t : State) (i : Instr) (rest : List Beat), decodePort s.port = .ok (i, rest) → step s = .next t →
    t.params = s.params ∧
    (t.passthrough ≠ s.passthrough → i = .reset ∨ ∃ v sp, i = .setPassthrough v sp) ∧
    (t.lastByteTime ≠ s.lastByteTime → i = .reset ∨ ∃ b now, i = .rxByte b now) ∧
    (t.channels ≠ s.channels → i = .reset ∨ Event.channelsUpdated ∈ t.events) ∧
    (i = .nop ∨ (∃ v sp, i = .setPassthrough v sp) ∨ (∃ a y q, i = .queueFrame a y q) →
      t.buf = s.buf ∧ t.cursor = s.cursor ∧ t.linkUp = s.linkUp)
end

