-- ==== Sys2Proof/Laws/State.lean ====
section
/-! SUPPORT. One lemma per field of State for each named update, so that no proof unfolds a record update. -/

namespace Sys2Proof.Machine

variable (s : State)

/-! `State.emit` -/

@[simp] theorem State.emit_buf (e : Event) : (s.emit e).buf = s.buf := rfl
@[simp] theorem State.emit_cursor (e : Event) : (s.emit e).cursor = s.cursor := rfl
@[simp] theorem State.emit_linkUp (e : Event) : (s.emit e).linkUp = s.linkUp := rfl
@[simp] theorem State.emit_lastChannelFrameTime (e : Event) : (s.emit e).lastChannelFrameTime = s.lastChannelFrameTime := rfl
@[simp] theorem State.emit_lastByteTime (e : Event) : (s.emit e).lastByteTime = s.lastByteTime := rfl
@[simp] theorem State.emit_passthrough (e : Event) : (s.emit e).passthrough = s.passthrough := rfl
@[simp] theorem State.emit_channels (e : Event) : (s.emit e).channels = s.channels := rfl
@[simp] theorem State.emit_params (e : Event) : (s.emit e).params = s.params := rfl
@[simp] theorem State.emit_port (e : Event) : (s.emit e).port = s.port := rfl
@[simp] theorem State.emit_events (e : Event) : (s.emit e).events = s.events ++ [e] := rfl
@[simp] theorem State.emit_crcOut (e : Event) : (s.emit e).crcOut = s.crcOut := rfl
@[simp] theorem State.emit_freeCount (e : Event) : (s.emit e).freeCount = s.freeCount := rfl

/-! `State.pushByte` -/

@[simp] theorem State.pushByte_buf (b : Byte) : (s.pushByte b).buf = Memory.write s.buf s.cursor b := rfl
@[simp] theorem State.pushByte_cursor (b : Byte) : (s.pushByte b).cursor = s.cursor + 1 := rfl
@[simp] theorem State.pushByte_linkUp (b : Byte) : (s.pushByte b).linkUp = s.linkUp := rfl
@[simp] theorem State.pushByte_lastChannelFrameTime (b : Byte) : (s.pushByte b).lastChannelFrameTime = s.lastChannelFrameTime := rfl
@[simp] theorem State.pushByte_lastByteTime (b : Byte) : (s.pushByte b).lastByteTime = s.lastByteTime := rfl
@[simp] theorem State.pushByte_passthrough (b : Byte) : (s.pushByte b).passthrough = s.passthrough := rfl
@[simp] theorem State.pushByte_channels (b : Byte) : (s.pushByte b).channels = s.channels := rfl
@[simp] theorem State.pushByte_params (b : Byte) : (s.pushByte b).params = s.params := rfl
@[simp] theorem State.pushByte_port (b : Byte) : (s.pushByte b).port = s.port := rfl
@[simp] theorem State.pushByte_events (b : Byte) : (s.pushByte b).events = s.events := rfl
@[simp] theorem State.pushByte_crcOut (b : Byte) : (s.pushByte b).crcOut = s.crcOut := rfl
@[simp] theorem State.pushByte_freeCount (b : Byte) : (s.pushByte b).freeCount = s.freeCount := rfl

/-! `State.shifted` -/

@[simp] theorem State.shifted_buf (k : Nat) : (s.shifted k).buf = Memory.ofBytesFrom 0 (s.bytes.drop k) := rfl
@[simp] theorem State.shifted_cursor (k : Nat) : (s.shifted k).cursor = s.cursor - k := rfl
@[simp] theorem State.shifted_linkUp (k : Nat) : (s.shifted k).linkUp = s.linkUp := rfl
@[simp] theorem State.shifted_lastChannelFrameTime (k : Nat) : (s.shifted k).lastChannelFrameTime = s.lastChannelFrameTime := rfl
@[simp] theorem State.shifted_lastByteTime (k : Nat) : (s.shifted k).lastByteTime = s.lastByteTime := rfl
@[simp] theorem State.shifted_passthrough (k : Nat) : (s.shifted k).passthrough = s.passthrough := rfl
@[simp] theorem State.shifted_channels (k : Nat) : (s.shifted k).channels = s.channels := rfl
@[simp] theorem State.shifted_params (k : Nat) : (s.shifted k).params = s.params := rfl
@[simp] theorem State.shifted_port (k : Nat) : (s.shifted k).port = s.port := rfl
@[simp] theorem State.shifted_events (k : Nat) : (s.shifted k).events = s.events := rfl
@[simp] theorem State.shifted_crcOut (k : Nat) : (s.shifted k).crcOut = s.crcOut := rfl
@[simp] theorem State.shifted_freeCount (k : Nat) : (s.shifted k).freeCount = s.freeCount := rfl

/-! `State.emptied` -/

@[simp] theorem State.emptied_buf : s.emptied.buf = [] := rfl
@[simp] theorem State.emptied_cursor : s.emptied.cursor = 0 := rfl
@[simp] theorem State.emptied_linkUp : s.emptied.linkUp = s.linkUp := rfl
@[simp] theorem State.emptied_lastChannelFrameTime : s.emptied.lastChannelFrameTime = s.lastChannelFrameTime := rfl
@[simp] theorem State.emptied_lastByteTime : s.emptied.lastByteTime = s.lastByteTime := rfl
@[simp] theorem State.emptied_passthrough : s.emptied.passthrough = s.passthrough := rfl
@[simp] theorem State.emptied_channels : s.emptied.channels = s.channels := rfl
@[simp] theorem State.emptied_params : s.emptied.params = s.params := rfl
@[simp] theorem State.emptied_port : s.emptied.port = s.port := rfl
@[simp] theorem State.emptied_events : s.emptied.events = s.events := rfl
@[simp] theorem State.emptied_crcOut : s.emptied.crcOut = s.crcOut := rfl
@[simp] theorem State.emptied_freeCount : s.emptied.freeCount = s.freeCount := rfl

/-! `State.setChannels` -/

@[simp] theorem State.setChannels_buf (c : Vector Int 16) : (s.setChannels c).buf = s.buf := rfl
@[simp] theorem State.setChannels_cursor (c : Vector Int 16) : (s.setChannels c).cursor = s.cursor := rfl
@[simp] theorem State.setChannels_linkUp (c : Vector Int 16) : (s.setChannels c).linkUp = s.linkUp := rfl
@[simp] theorem State.setChannels_lastChannelFrameTime (c : Vector Int 16) : (s.setChannels c).lastChannelFrameTime = s.lastChannelFrameTime := rfl
@[simp] theorem State.setChannels_lastByteTime (c : Vector Int 16) : (s.setChannels c).lastByteTime = s.lastByteTime := rfl
@[simp] theorem State.setChannels_passthrough (c : Vector Int 16) : (s.setChannels c).passthrough = s.passthrough := rfl
@[simp] theorem State.setChannels_channels (c : Vector Int 16) : (s.setChannels c).channels = c := rfl
@[simp] theorem State.setChannels_params (c : Vector Int 16) : (s.setChannels c).params = s.params := rfl
@[simp] theorem State.setChannels_port (c : Vector Int 16) : (s.setChannels c).port = s.port := rfl
@[simp] theorem State.setChannels_events (c : Vector Int 16) : (s.setChannels c).events = s.events := rfl
@[simp] theorem State.setChannels_crcOut (c : Vector Int 16) : (s.setChannels c).crcOut = s.crcOut := rfl
@[simp] theorem State.setChannels_freeCount (c : Vector Int 16) : (s.setChannels c).freeCount = s.freeCount := rfl

/-! `State.freeChannelVector` -/

@[simp] theorem State.freeChannelVector_buf : s.freeChannelVector.buf = s.buf := rfl
@[simp] theorem State.freeChannelVector_cursor : s.freeChannelVector.cursor = s.cursor := rfl
@[simp] theorem State.freeChannelVector_linkUp : s.freeChannelVector.linkUp = s.linkUp := rfl
@[simp] theorem State.freeChannelVector_lastChannelFrameTime : s.freeChannelVector.lastChannelFrameTime = s.lastChannelFrameTime := rfl
@[simp] theorem State.freeChannelVector_lastByteTime : s.freeChannelVector.lastByteTime = s.lastByteTime := rfl
@[simp] theorem State.freeChannelVector_passthrough : s.freeChannelVector.passthrough = s.passthrough := rfl
@[simp] theorem State.freeChannelVector_channels : s.freeChannelVector.channels = freeChannels s.freeCount := rfl
@[simp] theorem State.freeChannelVector_params : s.freeChannelVector.params = s.params := rfl
@[simp] theorem State.freeChannelVector_port : s.freeChannelVector.port = s.port := rfl
@[simp] theorem State.freeChannelVector_events : s.freeChannelVector.events = s.events := rfl
@[simp] theorem State.freeChannelVector_crcOut : s.freeChannelVector.crcOut = s.crcOut := rfl
@[simp] theorem State.freeChannelVector_freeCount : s.freeChannelVector.freeCount = s.freeCount + 1 := rfl

/-! `State.stampByte` -/

@[simp] theorem State.stampByte_buf (now : Word32) : (s.stampByte now).buf = s.buf := rfl
@[simp] theorem State.stampByte_cursor (now : Word32) : (s.stampByte now).cursor = s.cursor := rfl
@[simp] theorem State.stampByte_linkUp (now : Word32) : (s.stampByte now).linkUp = s.linkUp := rfl
@[simp] theorem State.stampByte_lastChannelFrameTime (now : Word32) : (s.stampByte now).lastChannelFrameTime = s.lastChannelFrameTime := rfl
@[simp] theorem State.stampByte_lastByteTime (now : Word32) : (s.stampByte now).lastByteTime = now := rfl
@[simp] theorem State.stampByte_passthrough (now : Word32) : (s.stampByte now).passthrough = s.passthrough := rfl
@[simp] theorem State.stampByte_channels (now : Word32) : (s.stampByte now).channels = s.channels := rfl
@[simp] theorem State.stampByte_params (now : Word32) : (s.stampByte now).params = s.params := rfl
@[simp] theorem State.stampByte_port (now : Word32) : (s.stampByte now).port = s.port := rfl
@[simp] theorem State.stampByte_events (now : Word32) : (s.stampByte now).events = s.events := rfl
@[simp] theorem State.stampByte_crcOut (now : Word32) : (s.stampByte now).crcOut = s.crcOut := rfl
@[simp] theorem State.stampByte_freeCount (now : Word32) : (s.stampByte now).freeCount = s.freeCount := rfl

/-! `State.setMode` -/

@[simp] theorem State.setMode_buf (val : Bool) : (s.setMode val).buf = s.buf := rfl
@[simp] theorem State.setMode_cursor (val : Bool) : (s.setMode val).cursor = s.cursor := rfl
@[simp] theorem State.setMode_linkUp (val : Bool) : (s.setMode val).linkUp = s.linkUp := rfl
@[simp] theorem State.setMode_lastChannelFrameTime (val : Bool) : (s.setMode val).lastChannelFrameTime = s.lastChannelFrameTime := rfl
@[simp] theorem State.setMode_lastByteTime (val : Bool) : (s.setMode val).lastByteTime = s.lastByteTime := rfl
@[simp] theorem State.setMode_passthrough (val : Bool) : (s.setMode val).passthrough = val := rfl
@[simp] theorem State.setMode_channels (val : Bool) : (s.setMode val).channels = s.channels := rfl
@[simp] theorem State.setMode_params (val : Bool) : (s.setMode val).params = s.params := rfl
@[simp] theorem State.setMode_port (val : Bool) : (s.setMode val).port = s.port := rfl
@[simp] theorem State.setMode_events (val : Bool) : (s.setMode val).events = s.events := rfl
@[simp] theorem State.setMode_crcOut (val : Bool) : (s.setMode val).crcOut = s.crcOut := rfl
@[simp] theorem State.setMode_freeCount (val : Bool) : (s.setMode val).freeCount = s.freeCount := rfl

/-! `State.setCrcOut` -/

@[simp] theorem State.setCrcOut_buf (c : Byte) : (s.setCrcOut c).buf = s.buf := rfl
@[simp] theorem State.setCrcOut_cursor (c : Byte) : (s.setCrcOut c).cursor = s.cursor := rfl
@[simp] theorem State.setCrcOut_linkUp (c : Byte) : (s.setCrcOut c).linkUp = s.linkUp := rfl
@[simp] theorem State.setCrcOut_lastChannelFrameTime (c : Byte) : (s.setCrcOut c).lastChannelFrameTime = s.lastChannelFrameTime := rfl
@[simp] theorem State.setCrcOut_lastByteTime (c : Byte) : (s.setCrcOut c).lastByteTime = s.lastByteTime := rfl
@[simp] theorem State.setCrcOut_passthrough (c : Byte) : (s.setCrcOut c).passthrough = s.passthrough := rfl
@[simp] theorem State.setCrcOut_channels (c : Byte) : (s.setCrcOut c).channels = s.channels := rfl
@[simp] theorem State.setCrcOut_params (c : Byte) : (s.setCrcOut c).params = s.params := rfl
@[simp] theorem State.setCrcOut_port (c : Byte) : (s.setCrcOut c).port = s.port := rfl
@[simp] theorem State.setCrcOut_events (c : Byte) : (s.setCrcOut c).events = s.events := rfl
@[simp] theorem State.setCrcOut_crcOut (c : Byte) : (s.setCrcOut c).crcOut = c := rfl
@[simp] theorem State.setCrcOut_freeCount (c : Byte) : (s.setCrcOut c).freeCount = s.freeCount := rfl

/-! `State.accept` -/

@[simp] theorem State.accept_buf (rest : List Beat) : (s.accept rest).buf = s.buf := rfl
@[simp] theorem State.accept_cursor (rest : List Beat) : (s.accept rest).cursor = s.cursor := rfl
@[simp] theorem State.accept_linkUp (rest : List Beat) : (s.accept rest).linkUp = s.linkUp := rfl
@[simp] theorem State.accept_lastChannelFrameTime (rest : List Beat) : (s.accept rest).lastChannelFrameTime = s.lastChannelFrameTime := rfl
@[simp] theorem State.accept_lastByteTime (rest : List Beat) : (s.accept rest).lastByteTime = s.lastByteTime := rfl
@[simp] theorem State.accept_passthrough (rest : List Beat) : (s.accept rest).passthrough = s.passthrough := rfl
@[simp] theorem State.accept_channels (rest : List Beat) : (s.accept rest).channels = s.channels := rfl
@[simp] theorem State.accept_params (rest : List Beat) : (s.accept rest).params = s.params := rfl
@[simp] theorem State.accept_port (rest : List Beat) : (s.accept rest).port = rest := rfl
@[simp] theorem State.accept_events (rest : List Beat) : (s.accept rest).events = [] := rfl
@[simp] theorem State.accept_crcOut (rest : List Beat) : (s.accept rest).crcOut = s.crcOut := rfl
@[simp] theorem State.accept_freeCount (rest : List Beat) : (s.accept rest).freeCount = s.freeCount := rfl

end Sys2Proof.Machine
end

