-- ==== Sys2Proof/Laws/Memory.lean ====
section
/-! SUPPORT. Reads after writes, the canonical form, and the valid bytes of the buffer after an append and a shift. -/

namespace Sys2Proof.Machine

/-! ### Memory -/

@[simp] theorem Memory.read_nil (a : Nat) : Memory.read [] a = none := rfl

theorem Memory.read_write_same (m : Memory) (a : Nat) (b : Byte) : Memory.read (Memory.write m a b) a = some b := by
  induction m with
  | nil => simp [Memory.write, Memory.read]
  | cons c m ih =>
    obtain ⟨x, y⟩ := c
    unfold Memory.write
    split
    · simp [Memory.read]
    · split
      · simp [Memory.read]
      · simp_all [Memory.read]

theorem Memory.read_write_other (m : Memory) {a c : Nat} (b : Byte) (h : c ≠ a) :
    Memory.read (Memory.write m a b) c = Memory.read m c := by
  induction m with
  | nil => simp [Memory.write, Memory.read, h]
  | cons d m ih =>
    obtain ⟨x, y⟩ := d
    unfold Memory.write
    split
    · simp [Memory.read, h]
    · split
      · next hx => subst hx; simp [Memory.read, h]
      · simp [Memory.read, ih]

theorem Memory.read_ofBytesFrom (l : List Byte) (k a : Nat) :
    Memory.read (Memory.ofBytesFrom k l) a = if k ≤ a then l[a - k]? else none := by
  induction l generalizing k with
  | nil => simp [Memory.ofBytesFrom]
  | cons b bs ih =>
    simp only [Memory.ofBytesFrom, Memory.read, ih]
    by_cases h1 : a = k
    · simp [h1]
    · by_cases h2 : k ≤ a
      · have h3 : k + 1 ≤ a := by omega
        have h4 : a - k = (a - (k + 1)) + 1 := by omega
        simp [h1, h2, h3, h4]
      · have h3 : ¬k + 1 ≤ a := by omega
        simp [h1, h2, h3]

theorem Memory.fst_ofBytesFrom (l : List Byte) (k : Nat) :
    (Memory.ofBytesFrom k l).map (·.1) = List.range' k l.length := by
  induction l generalizing k with
  | nil => rfl
  | cons b bs ih => simp [Memory.ofBytesFrom, ih, List.range'_succ]

/-- Strictly rising addresses are a property of the address list alone. -/
theorem Memory.wf_iff_fst (m : Memory) : Memory.wf m ↔ (m.map (·.1)).Pairwise (· < ·) := by
  simp [Memory.wf, List.pairwise_map]

theorem Memory.wf_ofBytesFrom (l : List Byte) (k : Nat) : Memory.wf (Memory.ofBytesFrom k l) := by
  rw [Memory.wf_iff_fst, Memory.fst_ofBytesFrom]
  exact List.pairwise_lt_range'

theorem Memory.fst_write (m : Memory) (a : Nat) (b : Byte) {x : Nat} (h : x ∈ (Memory.write m a b).map (·.1)) :
    x = a ∨ x ∈ m.map (·.1) := by
  induction m with
  | nil => simpa [Memory.write] using h
  | cons c m ih =>
    obtain ⟨u, v⟩ := c
    unfold Memory.write at h
    split at h
    · simpa using h
    · split at h
      · next hu => subst hu; simp at h ⊢; tauto
      · simp only [List.map_cons, List.mem_cons] at h ⊢
        rcases h with h | h
        · exact .inr (.inl h)
        · rcases ih h with h | h
          · exact .inl h
          · exact .inr (.inr h)

/-- A store keeps the canonical form. -/
theorem Memory.wf_write {m : Memory} (h : Memory.wf m) (a : Nat) (b : Byte) : Memory.wf (Memory.write m a b) := by
  rw [Memory.wf_iff_fst] at h ⊢
  induction m with
  | nil => simp [Memory.write]
  | cons c m ih =>
    obtain ⟨u, v⟩ := c
    simp only [List.map_cons, List.pairwise_cons] at h
    unfold Memory.write
    split
    · next hlt =>
      simp only [List.map_cons, List.pairwise_cons]
      refine ⟨fun x hx => ?_, h⟩
      rcases List.mem_cons.1 hx with rfl | hx
      · exact hlt
      · exact Nat.lt_trans hlt (h.1 x hx)
    · split
      · next hu => subst hu; simpa using h
      · next h1 h2 =>
        simp only [List.map_cons, List.pairwise_cons]
        refine ⟨fun x hx => ?_, ih h.2⟩
        rcases Memory.fst_write m a b hx with rfl | hx
        · omega
        · exact h.1 x hx

/-- A memory that lists exactly `0 .. n-1` is in canonical form. -/
theorem Memory.wf_of_range {m : Memory} {n : Nat} (h : m.map (·.1) = List.range n) : Memory.wf m := by
  rw [Memory.wf_iff_fst, h]
  exact List.pairwise_lt_range

/-- A store just beyond the listed addresses goes to the end. -/
theorem Memory.write_append {m : Memory} {a : Nat} (b : Byte) (h : ∀ x ∈ m.map (·.1), x < a) :
    Memory.write m a b = m ++ [(a, b)] := by
  induction m with
  | nil => rfl
  | cons c m ih =>
    obtain ⟨u, v⟩ := c
    have hu : u < a := h u (by simp)
    unfold Memory.write
    rw [if_neg (by omega), if_neg (by omega), ih fun x hx => h x (by simp_all)]
    rfl

/-! ### Reading the buffer -/

/-- A read looks at the memory only. -/
theorem State.readByte_congr {s t : State} (h : t.buf = s.buf) (a : Nat) : t.readByte a = s.readByte a := by
  simp [State.readByte, h]

theorem State.memRead_congr {s t : State} (h : t.buf = s.buf) (a n : Nat) : t.memRead a n = s.memRead a n := by
  simp [State.memRead, State.readByte_congr h]

theorem State.bytes_congr {s t : State} (h : t.buf = s.buf) (hc : t.cursor = s.cursor) : t.bytes = s.bytes := by
  simp [State.bytes, State.memRead_congr h, hc]

theorem State.headLen_congr {s t : State} (h : t.buf = s.buf) : t.headLen = s.headLen := by
  simp [State.headLen, State.readByte_congr h]

@[simp] theorem State.memRead_length (s : State) (a n : Nat) : (s.memRead a n).length = n := by simp [State.memRead]

@[simp] theorem State.bytes_length (s : State) : s.bytes.length = s.cursor := by simp [State.bytes]

theorem State.memRead_getElem? (s : State) (a n i : Nat) :
    (s.memRead a n)[i]? = if i < n then some (s.readByte (a + i)) else none := by
  by_cases h : i < n <;> simp [State.memRead, h]

theorem State.bytes_getElem? (s : State) (i : Nat) :
    s.bytes[i]? = if i < s.cursor then some (s.readByte i) else none := by
  simp [State.bytes, State.memRead_getElem?]

theorem State.memRead_succ (s : State) (a n : Nat) : s.memRead a (n + 1) = s.readByte a :: s.memRead (a + 1) n := by
  apply List.ext_getElem?
  intro i
  cases i with
  | zero => simp [State.memRead]
  | succ i =>
    have h : a + (i + 1) = a + 1 + i := by omega
    simp [State.memRead_getElem?, h]

theorem State.memRead_append (s : State) (a m n : Nat) : s.memRead a (m + n) = s.memRead a m ++ s.memRead (a + m) n := by
  induction m generalizing a with
  | zero => simp [State.memRead]
  | succ m ih =>
    have h1 : m + 1 + n = (m + n) + 1 := by omega
    have h2 : a + (m + 1) = a + 1 + m := by omega
    rw [h1, State.memRead_succ, State.memRead_succ, ih, h2]
    rfl

theorem State.memRead_eq_bytes (s : State) {n : Nat} (h : n ≤ s.cursor) : s.memRead 0 n = s.bytes.take n := by
  apply List.ext_getElem?
  intro i
  rw [State.memRead_getElem?, List.getElem?_take, State.bytes_getElem?]
  by_cases h1 : i < n
  · have h2 : i < s.cursor := by omega
    simp [h1, h2]
  · simp [h1]

/-- The bytes of a nonempty buffer: the leading byte, and what SHIFT1 leaves. -/
theorem State.bytes_eq_cons (s : State) (h : 1 ≤ s.cursor) : s.bytes = s.readByte 0 :: s.bytes.drop 1 := by
  obtain ⟨n, hn⟩ : ∃ n, s.cursor = n + 1 := ⟨s.cursor - 1, by omega⟩
  simp [State.bytes, hn, State.memRead_succ]

/-! ### Append and shift -/

theorem State.readByte_pushByte (s : State) (b : Byte) (a : Nat) :
    (s.pushByte b).readByte a = if a = s.cursor then b else s.readByte a := by
  by_cases h : a = s.cursor
  · subst h; simp [State.readByte, Memory.read_write_same]
  · simp [State.readByte, Memory.read_write_other _ _ h, h]

theorem State.readByte_shifted (s : State) (k a : Nat) :
    (s.shifted k).readByte a = if a + k < s.cursor then s.readByte (a + k) else Config.staleByte a := by
  have h0 : k + a = a + k := by omega
  simp only [State.readByte, State.shifted_buf, Memory.read_ofBytesFrom, Nat.zero_le, if_true, Nat.sub_zero,
    List.getElem?_drop, State.bytes_getElem?, h0]
  by_cases h : a + k < s.cursor <;> simp [h]

theorem State.readByte_emptied (s : State) (a : Nat) : s.emptied.readByte a = Config.staleByte a := by
  simp [State.readByte]

@[simp] theorem State.bytes_pushByte (s : State) (b : Byte) : (s.pushByte b).bytes = s.bytes ++ [b] := by
  apply List.ext_getElem?
  intro i
  rw [State.bytes_getElem?, State.readByte_pushByte, State.pushByte_cursor]
  rcases Nat.lt_trichotomy i s.cursor with h | h | h
  · rw [List.getElem?_append_left (by simpa using h), State.bytes_getElem?]
    simp [h, show i < s.cursor + 1 by omega, show i ≠ s.cursor by omega]
  · subst h; simp
  · rw [List.getElem?_eq_none (by simp; omega)]
    simp [show ¬i < s.cursor + 1 by omega]

@[simp] theorem State.bytes_shifted (s : State) (k : Nat) : (s.shifted k).bytes = s.bytes.drop k := by
  apply List.ext_getElem?
  intro i
  rw [State.bytes_getElem?, State.readByte_shifted, State.shifted_cursor, List.getElem?_drop, State.bytes_getElem?]
  have h0 : k + i = i + k := by omega
  have h1 : i < s.cursor - k ↔ i + k < s.cursor := by omega
  by_cases h : i + k < s.cursor <;> simp [h, h0, h1]

@[simp] theorem State.bytes_emptied (s : State) : s.emptied.bytes = [] := by simp [State.bytes, State.memRead]

theorem State.filled_pushByte {s : State} (h : s.Filled) (b : Byte) : (s.pushByte b).Filled := by
  have h1 : ∀ x ∈ s.buf.map (·.1), x < s.cursor := by
    rw [show s.buf.map (·.1) = _ from h]; simp
  simp only [State.Filled, State.pushByte_buf, State.pushByte_cursor, Memory.write_append b h1, List.range_succ,
    List.map_append, List.map_cons, List.map_nil]
  rw [show s.buf.map (·.1) = _ from h]

theorem State.filled_shifted (s : State) (k : Nat) : (s.shifted k).Filled := by
  simp [State.Filled, Memory.fst_ofBytesFrom, List.range_eq_range']

theorem State.filled_emptied (s : State) : s.emptied.Filled := rfl

theorem State.wf_of_filled {s : State} (h : s.Filled) : Memory.wf s.buf := Memory.wf_of_range h

/-- The invariant follows from a filled buffer in quiescent form. -/
theorem State.inv_of {s : State} (hf : s.Filled) (hq : s.Quiescent) : s.Inv := ⟨State.wf_of_filled hf, hf, hq⟩

/-- The invariant looks at the buffer, the cursor and the parameters only. -/
theorem State.inv_congr {s t : State} (hb : t.buf = s.buf) (hc : t.cursor = s.cursor) (hp : t.params = s.params)
    (h : s.Inv) : t.Inv := by
  simpa [State.Inv, State.Filled, State.Quiescent, hb, hc, hp, State.headLen_congr hb] using h

/-- A quiescent buffer is never full (R35). -/
theorem State.cursor_lt_cap {s : State} (h : s.Quiescent) : s.cursor < s.params.cap := by
  have := s.params.maxLen_ge
  unfold Params.cap
  rcases h with h | ⟨_, _, _⟩ <;> omega

end Sys2Proof.Machine
end

