-- ==== Sys2Proof/Laws/Ops.lean ====
section
/-! SUPPORT. For each shared operation, once, everything it can do. -/

namespace Sys2Proof.Machine

/-! ### Sequencing -/

@[simp] theorem Result.andThen_next (s : State) (f : State → Result) : Result.andThen (.next s) f = f s := rfl

theorem Result.andThen_eq_next {r : Result} {f : State → Result} {t : State} :
    r.andThen f = .next t ↔ ∃ s, r = .next s ∧ f s = .next t := by
  cases r <;> simp [Result.andThen]

/-! ### Buffer moves -/

theorem leftShift_eq {k : Nat} {s : State} (h1 : 1 ≤ k) (h2 : k ≤ s.cursor) (h3 : s.cursor ≤ s.params.cap) :
    leftShift k s = .next (s.shifted k) := if_pos ⟨h1, h2, h3⟩

theorem leftShift_cases {k : Nat} {s t : State} (h : leftShift k s = .next t) :
    1 ≤ k ∧ k ≤ s.cursor ∧ s.cursor ≤ s.params.cap ∧ t = s.shifted k := by
  unfold leftShift at h
  split at h
  · next hc => exact ⟨hc.1, hc.2.1, hc.2.2, by simpa using h.symm⟩
  · cases h

theorem discardOne_eq {s : State} (h1 : 1 ≤ s.cursor) (h2 : s.cursor ≤ s.params.cap) :
    discardOne s = .next ((s.emit (.rawByte (s.readByte 0))).shifted 1) := leftShift_eq (Nat.le_refl 1) h1 h2

theorem discardOne_cases {s t : State} (h : discardOne s = .next t) :
    1 ≤ s.cursor ∧ s.cursor ≤ s.params.cap ∧ t = (s.emit (.rawByte (s.readByte 0))).shifted 1 := by
  obtain ⟨_, h1, h2, h3⟩ := leftShift_cases h
  exact ⟨h1, h2, h3⟩

theorem discardFrame_eq {n : Nat} {s : State} (h1 : 1 ≤ n) (h2 : n ≤ s.cursor) (h3 : s.cursor ≤ s.params.cap) :
    discardFrame n s = .next (s.shifted n) := by
  rw [discardFrame, if_neg (by omega), leftShift_eq h1 h2 h3]

theorem discardFrame_cases {n : Nat} {s t : State} (h0 : n ≠ 0) (h : discardFrame n s = .next t) :
    n ≤ s.cursor ∧ s.cursor ≤ s.params.cap ∧ t = s.shifted n := by
  rw [discardFrame, if_neg h0] at h
  exact (leftShift_cases h).2

theorem appendByte_eq {s : State} (b : Byte) (h : s.cursor < s.params.cap) :
    appendByte b s = .next (s.pushByte b) := if_pos h

theorem appendByte_cases {b : Byte} {s t : State} (h : appendByte b s = .next t) :
    s.cursor < s.params.cap ∧ t = s.pushByte b := by
  unfold appendByte at h
  split at h
  · next hc => exact ⟨hc, by simpa using h.symm⟩
  · cases h

/-- Discarding byte by byte empties a nonempty buffer and surfaces every byte in order (R119). -/
theorem discardAll_eq {s : State} (h1 : 0 < s.cursor) (h2 : s.cursor ≤ s.params.cap) :
    discardAll s.cursor s = .next { s.emptied with events := s.events ++ s.bytes.map .rawByte } := by
  generalize hn : s.cursor = n at h1
  induction n generalizing s with
  | zero => omega
  | succ n ih =>
    have hb := s.bytes_eq_cons (by omega)
    have h4 : (s.emit (.rawByte (s.readByte 0))).bytes = s.bytes := State.bytes_congr rfl rfl
    simp only [discardAll, discardOne_eq (show 1 ≤ s.cursor by omega) h2, Result.andThen_next]
    by_cases h0 : n = 0
    · subst h0
      have hd : s.bytes.drop 1 = [] := List.drop_eq_nil_of_le (by simp [hn])
      rw [hd] at hb
      rw [discardAll, hb]
      congr 1
      ext1 <;> simp only [State.shifted_buf, State.shifted_cursor, h4, hd] <;> simp [Memory.ofBytesFrom, hn]
    · rw [ih (s := (s.emit (.rawByte (s.readByte 0))).shifted 1) (by simp; omega) (by simp [hn]) (by omega), hb]
      congr 1
      ext1 <;> simp [h4]

/-! ### Link operations -/

theorem touchLink_eq (now : Word32) (s : State) :
    touchLink now s = { s with
      lastChannelFrameTime := now, linkUp := true, events := s.events ++ if s.linkUp then [] else [.linkUp] } := by
  cases s with | mk a b c d e f g h i j k l => cases c <;> simp [touchLink, State.emit]

theorem checkLink_eq (now : Word32) (s : State) :
    checkLink now s = { s with
      linkUp := s.linkUp && !s.linkExpired now, events := s.events ++ if s.linkExpired now then [.linkDown] else [] } := by
  unfold checkLink
  by_cases h : s.linkExpired now <;> simp [h, State.emit]

theorem linkUp_of_expired {s : State} {now : Word32} (h : s.linkExpired now = true) : s.linkUp = true := by
  simp [State.linkExpired] at h; exact h.1

/-! ### The hand-off -/

/-- What CH_DECODE writes: the channels, and the counter of free values when the payload is short (R146). -/
theorem decodeChannels_eq (payload : List Byte) (s : State) :
    decodeChannels payload s = { s with
      channels := if 22 ≤ payload.length then decodedChannels s.params payload else freeChannels s.freeCount
      freeCount := if 22 ≤ payload.length then s.freeCount else s.freeCount + 1 } := by
  unfold decodeChannels
  split <;> rfl

theorem handleChannels_eq (payload : List Byte) (now : Word32) (s : State) :
    handleChannels payload now s = { s with
      linkUp := true
      lastChannelFrameTime := now
      channels := if 22 ≤ payload.length then decodedChannels s.params payload else freeChannels s.freeCount
      freeCount := if 22 ≤ payload.length then s.freeCount else s.freeCount + 1
      events := s.events ++ (if s.linkUp then [] else [.linkUp]) ++ [.channelsUpdated] } := by
  simp [handleChannels, touchLink_eq, decodeChannels_eq, State.emit]

/-- The hand-off always answers a next state, by the frame's class. -/
theorem handOffAs_eq (bytes : List Byte) (now : Word32) (f : Frame) (s : State) :
    handOffAs bytes now f s = .next
      (match f.classify s.params with
        | .channels => handleChannels f.payload now (s.emit (.frameValid bytes))
        | .linkStats => (s.emit (.frameValid bytes)).emit (.linkStatistics f.payload)
        | .gps => (s.emit (.frameValid bytes)).emit (.gps f.payload)
        | .unknownType | .notLocal => s.emit (.frameValid bytes)) := by
  unfold handOffAs
  simp only [State.emit_params]
  cases f.classify s.params <;> rfl

/-- The same for the hand-off that reports the frame's own bytes. -/
theorem handOff_eq (now : Word32) (f : Frame) (s : State) :
    handOff now f s = .next
      (match f.classify s.params with
        | .channels => handleChannels f.payload now (s.emit (.frameValid f.bytes))
        | .linkStats => (s.emit (.frameValid f.bytes)).emit (.linkStatistics f.payload)
        | .gps => (s.emit (.frameValid f.bytes)).emit (.gps f.payload)
        | .unknownType | .notLocal => s.emit (.frameValid f.bytes)) := handOffAs_eq f.bytes now f s

/-- A valid frame at the head of the buffer, in its parts. -/
theorem State.headValid_iff (s : State) : s.headValid = true ↔
    2 ≤ s.cursor ∧ (3 ≤ s.headLen ∧ s.headLen ≤ s.params.maxLen) ∧ s.headLen + 2 ≤ s.cursor ∧
      s.headChecksumOk = true := by
  simp [State.headValid, Params.plausible, and_assoc]

/-- The head frame's bytes are the buffer's leading `len + 2` bytes (R58, R140). -/
theorem State.headFrame_bytes {s : State} (h : 2 ≤ s.headLen) : s.headFrame.bytes = s.memRead 0 (s.headLen + 2) := by
  obtain ⟨n, hn⟩ : ∃ n, s.headLen = n + 2 := ⟨s.headLen - 2, by omega⟩
  simp only [Frame.bytes, State.headFrame, hn, show n + 2 + 2 = (n + 1) + 1 + 1 + 1 by omega]
  rw [State.memRead_succ, State.memRead_succ, State.memRead_succ]
  have h1 : s.memRead (0 + 1 + 1 + 1) (n + 1) = s.memRead 3 n ++ s.memRead (3 + n) 1 := s.memRead_append 3 n 1
  have h2 : s.memRead (3 + n) 1 = [s.readByte (n + 2 + 1)] := by
    simp [State.memRead, show 3 + n = n + 2 + 1 by omega]
  rw [h1, h2]
  rfl

/-- The checksum test reads the type tag and the payload (R73, R105). -/
theorem State.headFrame_valid {s : State} (h : s.headValid = true) : s.headFrame.valid s.params = true := by
  obtain ⟨_, hp, _, hc⟩ := s.headValid_iff.1 h
  obtain ⟨n, hn⟩ : ∃ n, s.headLen = n + 2 := ⟨s.headLen - 2, by omega⟩
  have h1 : s.memRead 2 (s.headLen - 1) = s.readByte 2 :: s.memRead 3 (s.headLen - 2) := by
    rw [show s.headLen - 1 = (s.headLen - 2) + 1 by omega, State.memRead_succ]
  simp only [State.headChecksumOk, h1, decide_eq_true_eq] at hc
  have h3 : (s.readByte 1).toNat = s.headLen := rfl
  simp only [Frame.valid, State.headFrame, Params.plausible, h3, State.memRead_length, hc, Bool.and_eq_true,
    decide_eq_true_eq]
  exact ⟨⟨hp, by omega⟩, trivial⟩

/-- On a head whose length byte is at least 2, DISPATCH is the hand-off that VALIDATE performs (R114, R140). -/
theorem execDispatch_eq_handOff (now : Word32) {s : State} (h : 2 ≤ s.headLen) :
    execDispatch now s = handOff now s.headFrame s := by
  rw [execDispatch, handOff, State.headFrame_bytes h]

/-! ### The validation loop -/

/-- One frame pass of VALIDATE answers a next state (R114). -/
theorem framePass_eq {now : Word32} {s : State} (h : s.headValid = true) (hc : s.cursor ≤ s.params.cap) :
    ∃ t, handOff now s.headFrame s = .next t ∧ t.buf = s.buf ∧ t.cursor = s.cursor ∧ t.params = s.params ∧
      discardFrame (s.headLen + 2) t = .next (t.shifted (s.headLen + 2)) := by
  obtain ⟨_, hp, hl, _⟩ := s.headValid_iff.1 h
  refine ⟨_, handOff_eq now s.headFrame s, ?_⟩
  have key : ∀ t : State, t.buf = s.buf → t.cursor = s.cursor → t.params = s.params →
      t.buf = s.buf ∧ t.cursor = s.cursor ∧ t.params = s.params ∧
        discardFrame (s.headLen + 2) t = .next (t.shifted (s.headLen + 2)) := fun t h1 h2 h3 =>
    ⟨h1, h2, h3, discardFrame_eq (by omega) (by omega) (by rw [h2, h3]; exact hc)⟩
  cases s.headFrame.classify s.params <;> exact key _ (by simp [handleChannels_eq]) (by simp [handleChannels_eq])
    (by simp [handleChannels_eq])

/-- The loop's body as its four exits and retries (R112 to R115), with the frame pass's guard gathered. -/
theorem validateLoop_succ (now : Word32) (n : Nat) (s : State) :
    validateLoop now (n + 1) s =
      if s.cursor < 2 then .next s
      else if ¬(3 ≤ s.headLen ∧ s.headLen ≤ s.params.maxLen) then (discardOne s).andThen (validateLoop now n)
      else if s.cursor < s.headLen + 2 then .next s
      else if s.headChecksumOk then
        ((handOff now s.headFrame s).andThen (discardFrame (s.headLen + 2))).andThen (validateLoop now n)
      else (discardOne s).andThen (validateLoop now n) := by
  rw [validateLoop]
  simp only [Params.plausible, decide_eq_true_eq, raise]
  by_cases h1 : s.cursor < 2
  · simp [h1]
  · by_cases h2 : 3 ≤ s.headLen ∧ s.headLen ≤ s.params.maxLen
    · by_cases h3 : s.headLen + 2 ≤ s.cursor
      · simp [h1, h2, h3, show ¬s.cursor < s.headLen + 2 by omega]
      · simp [h1, h2, h3, show s.cursor < s.headLen + 2 by omega]
    · simp only [h1, h2, if_false, not_false_eq_true, if_true]

/-- The loop answers a next state whenever the cursor lies in the buffer, as R22 says it does (R120). -/
theorem validateLoop_completes (now : Word32) (n : Nat) (s : State) (h : s.cursor ≤ s.params.cap) :
    ∃ t, validateLoop now n s = .next t := by
  induction n generalizing s with
  | zero => exact ⟨s, rfl⟩
  | succ n ih =>
    rw [validateLoop_succ]
    have hone : 2 ≤ s.cursor → ∃ t, (discardOne s).andThen (validateLoop now n) = .next t := fun h2 => by
      rw [discardOne_eq (by omega) h]
      exact ih _ (by simp; omega)
    split
    · exact ⟨s, rfl⟩
    · next h2 =>
      split
      · exact hone (by omega)
      · next hp =>
        split
        · exact ⟨s, rfl⟩
        · next hl =>
          split
          · next hc =>
            have hv : s.headValid = true := s.headValid_iff.2 ⟨by omega, by simpa using hp, by omega, hc⟩
            obtain ⟨t, h3, h4, h5, h6, h7⟩ := framePass_eq (now := now) hv h
            rw [h3, Result.andThen_next, h7, Result.andThen_next]
            exact ih _ (by simp [h5, h6]; omega)
          · exact hone (by omega)

/-- Induction over the passes of VALIDATE: what one discard keeps, and one frame pass keeps, the loop keeps. -/
theorem validateLoop_induct (now : Word32) (R : State → State → Prop) (hrefl : ∀ s, R s s)
    (htrans : ∀ s t u, R s t → R t u → R s u)
    (hone : ∀ s t, 2 ≤ s.cursor → discardOne s = .next t → R s t)
    (hframe : ∀ s t u, s.headValid = true → handOff now s.headFrame s = .next t →
      discardFrame (s.headLen + 2) t = .next u → R s u)
    (n : Nat) (s t : State) (h : validateLoop now n s = .next t) : R s t := by
  induction n generalizing s with
  | zero => cases h; exact hrefl _
  | succ n ih =>
    rw [validateLoop_succ] at h
    split at h
    · cases h; exact hrefl _
    · next h2 =>
      split at h
      · obtain ⟨u, h3, h4⟩ := Result.andThen_eq_next.1 h
        exact htrans _ _ _ (hone s u (by omega) h3) (ih u h4)
      · next hp =>
        split at h
        · cases h; exact hrefl _
        · next hl =>
          split at h
          · next hc =>
            have hv : s.headValid = true := s.headValid_iff.2 ⟨by omega, by simpa using hp, by omega, hc⟩
            obtain ⟨u, h3, h4⟩ := Result.andThen_eq_next.1 h
            obtain ⟨v, h5, h6⟩ := Result.andThen_eq_next.1 h3
            exact htrans _ _ _ (hframe s v u hv h5 h6) (ih u h4)
          · obtain ⟨u, h3, h4⟩ := Result.andThen_eq_next.1 h
            exact htrans _ _ _ (hone s u (by omega) h3) (ih u h4)

/-- A pass that does not exit lowers the cursor (R120). -/
theorem framePass_cursor {now : Word32} {s t u : State} (h : handOff now s.headFrame s = .next t)
    (h1 : discardFrame (s.headLen + 2) t = .next u) : u.cursor + (s.headLen + 2) = s.cursor ∧ u.params = s.params ∧
      s.cursor ≤ s.params.cap := by
  obtain ⟨h2, h3, rfl⟩ := discardFrame_cases (by omega) h1
  rw [handOff_eq] at h
  cases hc : s.headFrame.classify s.params <;> simp only [hc] at h <;> cases h <;>
    simp [handleChannels_eq] at h2 h3 ⊢ <;> omega

/-- From a count that bounds the cursor the loop ends in quiescent form (R35). -/
theorem validateLoop_quiescent (now : Word32) (n : Nat) (s t : State) (hn : s.cursor ≤ n)
    (h : validateLoop now n s = .next t) : t.Quiescent := by
  induction n generalizing s with
  | zero => cases h; left; omega
  | succ n ih =>
    have hone : (discardOne s).andThen (validateLoop now n) = .next t → t.Quiescent := fun h => by
      obtain ⟨u, h3, h4⟩ := Result.andThen_eq_next.1 h
      obtain ⟨h5, _, rfl⟩ := discardOne_cases h3
      exact ih _ (by simp; omega) h4
    rw [validateLoop_succ] at h
    split at h
    · next h2 => cases h; exact .inl h2
    · split at h
      · exact hone h
      · next hp =>
        split at h
        · next hl =>
          cases h
          have hp := not_not.1 hp
          exact .inr ⟨hp.1, hp.2, hl⟩
        · split at h
          · obtain ⟨u, h3, h4⟩ := Result.andThen_eq_next.1 h
            obtain ⟨v, h5, h6⟩ := Result.andThen_eq_next.1 h3
            have := (framePass_cursor h5 h6).1
            exact ih u (by omega) h4
          · exact hone h

/-- Counts that bound the cursor make no difference (R120). -/
theorem validateLoop_count (now : Word32) (n m : Nat) (s : State) (hn : s.cursor ≤ n) (hm : s.cursor ≤ m) :
    validateLoop now n s = validateLoop now m s := by
  induction n generalizing m s with
  | zero =>
    cases m with
    | zero => rfl
    | succ m => rw [validateLoop_succ, if_pos (by omega)]; rfl
  | succ n ih =>
    cases m with
    | zero => rw [validateLoop_succ, if_pos (by omega)]; rfl
    | succ m =>
      have hone : (discardOne s).andThen (validateLoop now n) = (discardOne s).andThen (validateLoop now m) := by
        cases hd : discardOne s with
        | next u =>
          obtain ⟨h5, _, rfl⟩ := discardOne_cases hd
          exact ih m _ (by simp; omega) (by simp; omega)
        | fault e => rfl
        | refused e => rfl
      have hframe : ((handOff now s.headFrame s).andThen (discardFrame (s.headLen + 2))).andThen (validateLoop now n) =
          ((handOff now s.headFrame s).andThen (discardFrame (s.headLen + 2))).andThen (validateLoop now m) := by
        cases hd : (handOff now s.headFrame s).andThen (discardFrame (s.headLen + 2)) with
        | next u =>
          obtain ⟨v, h5, h6⟩ := Result.andThen_eq_next.1 hd
          have := (framePass_cursor h5 h6).1
          exact ih m u (by omega) (by omega)
        | fault e => rfl
        | refused e => rfl
      rw [validateLoop_succ, validateLoop_succ, hone, hframe]

end Sys2Proof.Machine
end

