-- ==== Sys2Proof/Laws/Frame.lean ====
section
/-! SUPPORT. Frames as byte sequences: the record and its bytes determine each other, and validity is R74. -/

namespace Sys2Proof

@[simp] theorem Frame.bytes_length (f : Frame) : f.bytes.length = f.payload.length + 4 := by simp [Frame.bytes]

theorem Frame.ofBytes_bytes (f : Frame) : Frame.ofBytes f.bytes = some f := by
  simp [Frame.bytes, Frame.ofBytes]

theorem Frame.bytes_ofBytes {bs : List Byte} {f : Frame} (h : Frame.ofBytes bs = some f) : f.bytes = bs := by
  match bs, h with
  | a :: l :: t :: rest, h =>
    unfold Frame.ofBytes at h
    cases hr : rest.getLast? with
    | none => simp [hr] at h
    | some c =>
      simp only [hr, Option.some.injEq] at h
      subst h
      obtain ⟨pre, rfl⟩ : ∃ pre, rest = pre ++ [c] := List.getLast?_eq_some_iff.1 hr
      simp [Frame.bytes]

/-- A byte sequence of at least four bytes is a frame record. -/
theorem Frame.exists_of_length {bs : List Byte} (h : 4 ≤ bs.length) : ∃ f : Frame, f.bytes = bs := by
  match bs, h with
  | a :: l :: t :: x :: rest, _ =>
    refine ⟨⟨a, l, t, (x :: rest).dropLast, (x :: rest).getLast (by simp)⟩, ?_⟩
    simp [Frame.bytes, List.dropLast_append_getLast]

namespace Machine

/-- R74 on the record is R74 on the bytes. -/
theorem validFrame_bytes (p : Params) (f : Frame) : ValidFrame p f.bytes ↔ f.valid p = true := by
  have h1 : f.bytes.getD 1 0 = f.declaredLength := by simp [Frame.bytes]
  have h2 : f.payload.length + 2 = f.declaredLength.toNat → f.bytes.getD (f.declaredLength.toNat + 1) 0 = f.checksum := by
    intro h; rw [← h]; simp [Frame.bytes]
  have h3 : f.payload.length + 2 = f.declaredLength.toNat →
      (f.bytes.drop 2).take (f.declaredLength.toNat - 1) = f.typeTag :: f.payload := by
    intro h
    rw [← h]
    simp [Frame.bytes]
  simp only [ValidFrame, Frame.valid, Params.plausible, h1, Bool.and_eq_true, decide_eq_true_eq, Frame.bytes_length]
  constructor
  · rintro ⟨_, h4, h5, h6, h7⟩
    have h8 : f.payload.length + 2 = f.declaredLength.toNat := by omega
    rw [h2 h8, h3 h8] at h7
    exact ⟨⟨⟨h4, h5⟩, h8⟩, h7⟩
  · rintro ⟨⟨⟨h4, h5⟩, h8⟩, h7⟩
    rw [h2 h8, h3 h8]
    exact ⟨by omega, h4, h5, by omega, h7⟩

/-- What the constructed frame of R177 is: valid whenever its payload size is one that R72 allows. -/
theorem build_valid (p : Params) (addr type : Byte) (payload : List Byte) (h1 : 1 ≤ payload.length)
    (h2 : payload.length + 2 ≤ p.maxLen) : (Frame.build addr type payload).valid p = true := by
  have h3 := p.maxLen_le
  have h4 : (BitVec.ofNat 8 (payload.length + 2)).toNat = payload.length + 2 := by
    rw [BitVec.toNat_ofNat]; exact Nat.mod_eq_of_lt (by omega)
  simp only [Frame.valid, Frame.build, Params.plausible, h4, Bool.and_eq_true, decide_eq_true_eq]
  exact ⟨⟨by omega, trivial⟩, trivial⟩

/-- The wire decoder on the bytes of a valid frame. -/
theorem decodeFrame_bytes {p : Params} {f : Frame} (now : Word32) (h : f.valid p = true) :
    decodeFrame p now f.bytes = .ok (frameInstr p now f) := by
  simp only [Frame.valid, Bool.and_eq_true, decide_eq_true_eq] at h
  simp [decodeFrame, Frame.ofBytes_bytes, h.1.1, h.1.2, ← h.2]

/-- What the wire decoder accepts. -/
theorem decodeFrame_cases {p : Params} {now : Word32} {bs : List Byte} {i : Instr}
    (h : decodeFrame p now bs = .ok i) : ∃ f : Frame, f.bytes = bs ∧ f.valid p = true ∧ i = frameInstr p now f := by
  unfold decodeFrame at h
  cases hf : Frame.ofBytes bs with
  | none => simp [hf] at h
  | some f =>
    simp only [hf] at h
    split at h
    · cases h
    · next h1 =>
      split at h
      · cases h
      · next h2 =>
        split at h
        · cases h
        · next h3 =>
          refine ⟨f, Frame.bytes_ofBytes hf, ?_, by simpa using h.symm⟩
          simp only [Frame.valid, Bool.and_eq_true, decide_eq_true_eq]
          exact ⟨⟨not_not.1 h1, not_not.1 h2⟩, not_not.1 h3⟩

/-- A heartbeat frame is reported as one (R160). -/
theorem reportsHeartbeat_of_channels {p : Params} {f : Frame} (h : f.classify p = .channels) :
    reportsHeartbeat p (.frameValid f.bytes) = true := by
  unfold Frame.classify at h
  by_cases h1 : f.destinationAddress = p.localAddr
  · by_cases h2 : f.typeTag = p.typeChannels
    · simp [reportsHeartbeat, Frame.bytes, h1, h2]
    · simp only [h1, ne_eq, not_true_eq_false, if_false, h2] at h
      split at h
      · cases h
      · split at h <;> cases h
  · simp [h1] at h

end Machine
end Sys2Proof
end

