-- ==== Sys2Proof/Laws/Decode.lean ====
section
/-! SUPPORT. What the command port can decode to, and the byte collectors of the two ports on encoded beats. -/

namespace Sys2Proof

/-- Every instruction on the command port is RESET, a command of R78, or a reserved code (R81). -/
theorem decodePort_cases {bs rest : List Beat} {i : Instr} (h : decodePort bs = .ok (i, rest)) :
    i = .reset ∨ Machine.commandCode i = true ∨ i = .reserved5 ∨ i = .reserved6 ∨ i = .reserved7 := by
  unfold decodePort at h
  split at h
  · cases h
  · split at h
    · cases h; exact .inl rfl
    · split at h
      · split at h
        · cases h; exact .inl rfl
        · unfold decodeQueueFrame at h
          split at h
          · split at h
            · cases h; exact .inr (.inl rfl)
            · cases h
          · cases h
          · cases h
      · cases h
        unfold decodeOneBeat
        repeat' split
        all_goals simp [Machine.commandCode]

@[simp] theorem queueBeat_rst (x : Byte) : (queueBeat x).rst = false := rfl
@[simp] theorem queueBeat_op (x : Byte) : (queueBeat x).op = 4 := rfl
@[simp] theorem queueBeat_data (x : Byte) : (queueBeat x).data = x := rfl

/-- Collecting the data of command-4 beats (D2). -/
theorem takeQueueBytes_map (xs : List Byte) (rest : List Beat) :
    takeQueueBytes xs.length (xs.map queueBeat ++ rest) = .ok (xs, rest) := by
  induction xs with
  | nil => simp [takeQueueBytes]
  | cons x xs ih => simp [takeQueueBytes, ih]

/-- A beat of another command waits while a QUEUE_FRAME is collected (R200). -/
theorem takeQueueBytes_waiting (k : Nat) (c : Beat) (bs : List Beat) (hr : c.rst = false) (ho : c.op ≠ 4) :
    takeQueueBytes (k + 1) (c :: bs) = (takeQueueBytes (k + 1) bs).map fun r => (r.1, c :: r.2) := by
  simp only [takeQueueBytes, hr, Bool.false_eq_true, if_false, ho, ne_eq, not_false_eq_true, if_true]
  cases takeQueueBytes (k + 1) bs <;> rfl

/-- The beats of a QUEUE_FRAME with another command's beat among them: the command is whole, the other waits (R200). -/
theorem takeQueueBytes_around (xs ys : List Byte) (c : Beat) (rest : List Beat) (hr : c.rst = false) (ho : c.op ≠ 4) :
    takeQueueBytes (xs.length + ys.length) (xs.map queueBeat ++ c :: (ys.map queueBeat ++ rest)) =
      .ok (xs ++ ys, c :: rest) := by
  induction xs with
  | nil =>
    cases ys with
    | nil => simp [takeQueueBytes]
    | cons y ys =>
      have h := takeQueueBytes_map (y :: ys) rest
      simp only [List.length_cons] at h
      simp only [List.length_nil, List.map_nil, List.nil_append, Nat.zero_add, List.length_cons]
      rw [takeQueueBytes_waiting _ c _ hr ho, h]
      rfl
  | cons x xs ih =>
    have h : (x :: xs).length + ys.length = xs.length + ys.length + 1 := by simp; omega
    rw [h]
    simp [takeQueueBytes, ih]

/-- A collection cut short waits for more beats (D2). -/
theorem takeQueueBytes_short (xs : List Byte) (k : Nat) (h : xs.length < k) :
    takeQueueBytes k (xs.map queueBeat) = .error .incompleteQueueFrame := by
  induction xs generalizing k with
  | nil => cases k with
    | zero => simp at h
    | succ k => rfl
  | cons x xs ih => cases k with
    | zero => simp at h
    | succ k => simp [takeQueueBytes, ih k (by simpa using h)]

/-- A collection cut by a reset beat is abandoned (R240). -/
theorem takeQueueBytes_reset (xs : List Byte) (k : Nat) (b : Beat) (rest : List Beat) (hb : b.rst = true)
    (h : xs.length < k) :
    takeQueueBytes k (xs.map queueBeat ++ b :: rest) = .error (.abandonedByReset rest) := by
  induction xs generalizing k with
  | nil => cases k with
    | zero => simp at h
    | succ k => simp [takeQueueBytes, hb]
  | cons x xs ih => cases k with
    | zero => simp at h
    | succ k => simp [takeQueueBytes, ih k (by simpa using h)]

/-- Collecting the bytes of a multi-byte event (D2). -/
theorem takeEvtBytes_beats (k : BitVec 4) (first : Bool) (xs : List Byte) (rest : List EvtBeat) (h : xs ≠ []) :
    takeEvtBytes k first (evtByteBeats k first xs ++ rest) = .ok (xs, rest) := by
  induction xs generalizing first with
  | nil => exact absurd rfl h
  | cons x xs ih =>
    cases xs with
    | nil => simp [evtByteBeats, takeEvtBytes]
    | cons y ys => simp [evtByteBeats, takeEvtBytes, ih false (by simp)]

/-- A frame-class instruction of the right class is what its frame decodes to (R140). -/
theorem frameInstr_eq (p : Params) (now : Word32) (f : Frame) :
    (f.classify p = .channels → frameInstr p now f = .frameChannels f now) ∧
    (f.classify p = .linkStats → frameInstr p now f = .frameLinkStats f) ∧
    (f.classify p = .gps → frameInstr p now f = .frameGps f) ∧
    (f.classify p = .unknownType → frameInstr p now f = .frameUnknownType f) ∧
    (f.classify p = .notLocal → frameInstr p now f = .frameNotLocal f) := by
  refine ⟨?_, ?_, ?_, ?_, ?_⟩ <;> intro h <;> simp [frameInstr, h]

/-- The instruction of a valid frame is well formed, and its encoding is the frame's bytes. -/
theorem frameInstr_wf {p : Params} (now : Word32) {f : Frame} (h : f.valid p = true) :
    (frameInstr p now f).wf p = true ∧ encode (frameInstr p now f) = .wire f.bytes := by
  unfold frameInstr
  cases hc : f.classify p <;> simp [Instr.wf, encode, h, hc]

end Sys2Proof
end

