-- ==== Sys2Proof/Laws/Progress.lean ====
section
/-! SUPPORT. What one internal move of VALIDATE can do, said once (`Progress`), and that the whole loop can do no more. -/

namespace Sys2Proof.Machine

/-! ### Event lists -/

@[simp] theorem reportedBytes_nil : reportedBytes [] = [] := rfl
@[simp] theorem reportedBytes_cons (e : Event) (es : List Event) :
    reportedBytes (e :: es) = Event.reported e ++ reportedBytes es := rfl
@[simp] theorem reportedBytes_append (a b : List Event) : reportedBytes (a ++ b) = reportedBytes a ++ reportedBytes b := by
  simp [reportedBytes]

theorem reportedBytes_map_rawByte (bs : List Byte) : reportedBytes (bs.map .rawByte) = bs := by
  induction bs with
  | nil => rfl
  | cons b bs ih => simp [Event.reported, ih]

@[simp] theorem linkEdges_append (a b : List Event) : linkEdges (a ++ b) = linkEdges a ++ linkEdges b := by
  simp [linkEdges]

theorem linkEdges_map_rawByte (bs : List Byte) : linkEdges (bs.map .rawByte) = [] := by
  simp [linkEdges]

theorem followEdges_append {u v w : Bool} {a b : List Bool} (h1 : followEdges u a = some v)
    (h2 : followEdges v b = some w) : followEdges u (a ++ b) = some w := by
  induction a generalizing u with
  | nil => simp [followEdges] at h1; simp [h1, h2]
  | cons e es ih =>
    simp only [followEdges, List.cons_append] at h1 ⊢
    split
    · next h => simp [h] at h1
    · next h => exact ih (by simpa [h] using h1)

/-- Alternation fixes the counts: between two link states they differ by the change (R163). -/
theorem followEdges_count {u v : Bool} {es : List Bool} (h : followEdges u es = some v) :
    es.count true + (if u then 1 else 0) = es.count false + (if v then 1 else 0) := by
  induction es generalizing u with
  | nil => simp [followEdges] at h; simp [h]
  | cons e es ih =>
    simp only [followEdges] at h
    split at h
    · cases h
    · next hne =>
      have := ih h
      cases e <;> cases u <;> simp_all <;> omega

/-! ### Progress -/

/-- What the moves of VALIDATE at time `now` can do: events are appended; the bytes that left the buffer are exactly the
ones reported; link edges follow the flag; reported frames are valid; only a heartbeat frame raises the link or writes its
stamp; only a channel update writes the channels; the rest of the state stays. -/
structure Progress (now : Word32) (s t : State) : Prop where
  events : ∃ evs, t.events = s.events ++ evs ∧ s.bytes = reportedBytes evs ++ t.bytes ∧
    followEdges s.linkUp (linkEdges evs) = some t.linkUp ∧
    (∀ f, Event.frameValid f ∈ evs → ValidFrame s.params f) ∧
    ((s.linkUp = false ∧ t.linkUp = true) ∨ t.lastChannelFrameTime ≠ s.lastChannelFrameTime →
      (∃ e ∈ evs, reportsHeartbeat s.params e = true) ∧ t.lastChannelFrameTime = now) ∧
    (t.channels ≠ s.channels → Event.channelsUpdated ∈ evs)
  link_mono : s.linkUp = true → t.linkUp = true
  filled : s.Filled → t.Filled
  cursor_le : t.cursor ≤ s.cursor
  rest : t = { s with
    buf := t.buf, cursor := t.cursor, linkUp := t.linkUp, lastChannelFrameTime := t.lastChannelFrameTime,
    channels := t.channels, events := t.events, freeCount := t.freeCount }

theorem Progress.params {now : Word32} {s t : State} (h : Progress now s t) : t.params = s.params := by
  have := congrArg State.params h.rest; exact this

theorem Progress.refl (now : Word32) (s : State) : Progress now s s where
  events := ⟨[], by simp [linkEdges, followEdges]⟩
  link_mono := id
  filled := id
  cursor_le := Nat.le_refl _
  rest := rfl

theorem Progress.trans {now : Word32} {s t u : State} (h1 : Progress now s t) (h2 : Progress now t u) :
    Progress now s u where
  events := by
    obtain ⟨e1, a1, b1, c1, d1, f1, g1⟩ := h1.events
    obtain ⟨e2, a2, b2, c2, d2, f2, g2⟩ := h2.events
    rw [h1.params] at d2 f2
    refine ⟨e1 ++ e2, by rw [a2, a1, List.append_assoc], by rw [b1, b2]; simp, ?_, ?_, ?_, ?_⟩
    · rw [linkEdges_append]; exact followEdges_append c1 c2
    · intro f hf
      rcases List.mem_append.1 hf with hf | hf
      · exact d1 f hf
      · exact d2 f hf
    · intro h
      by_cases hu : u.lastChannelFrameTime = t.lastChannelFrameTime ∧ ¬(t.linkUp = false ∧ u.linkUp = true)
      · have h3 : (s.linkUp = false ∧ t.linkUp = true) ∨ t.lastChannelFrameTime ≠ s.lastChannelFrameTime := by
          rcases h with ⟨h4, h5⟩ | h
          · left
            refine ⟨h4, ?_⟩
            cases htl : t.linkUp
            · exact absurd ⟨htl, h5⟩ hu.2
            · rfl
          · exact .inr (by rw [← hu.1]; exact h)
        obtain ⟨⟨e, he, hb⟩, hn⟩ := f1 h3
        exact ⟨⟨e, List.mem_append_left _ he, hb⟩, by rw [hu.1]; exact hn⟩
      · have h3 : (t.linkUp = false ∧ u.linkUp = true) ∨ u.lastChannelFrameTime ≠ t.lastChannelFrameTime := by
          by_cases h4 : u.lastChannelFrameTime = t.lastChannelFrameTime
          · by_contra h5
            exact hu ⟨h4, fun h6 => h5 (.inl h6)⟩
          · exact .inr h4
        obtain ⟨⟨e, he, hb⟩, hn⟩ := f2 h3
        exact ⟨⟨e, List.mem_append_right _ he, hb⟩, hn⟩
    · intro h
      by_cases hc : t.channels = s.channels
      · exact List.mem_append_right _ (g2 (by rw [hc]; exact h))
      · exact List.mem_append_left _ (g1 hc)
  link_mono := fun h => h2.link_mono (h1.link_mono h)
  filled := fun h => h2.filled (h1.filled h)
  cursor_le := Nat.le_trans h2.cursor_le h1.cursor_le
  rest := by rw [h2.rest, h1.rest]

/-- One discarded byte (R116). -/
theorem Progress.discardOne {now : Word32} {s t : State} (h : Machine.discardOne s = .next t) : Progress now s t := by
  obtain ⟨h1, _, rfl⟩ := discardOne_cases h
  have hb : (s.emit (.rawByte (s.readByte 0))).bytes = s.bytes := State.bytes_congr rfl rfl
  exact {
    events := ⟨[.rawByte (s.readByte 0)], by simp, by
      simpa [hb, Event.reported] using s.bytes_eq_cons h1, by simp [linkEdges, followEdges], by simp, by simp, by simp⟩
    link_mono := id
    filled := fun _ => State.filled_shifted _ 1
    cursor_le := by simp
    rest := rfl }

/-- The hand-off of a valid head frame does not touch the buffer and reports the frame (R140). -/
theorem handOff_cases {now : Word32} {f : Frame} {s t : State} (h : handOff now f s = .next t) :
    ∃ evs, t.events = s.events ++ .frameValid f.bytes :: evs ∧ reportedBytes evs = [] ∧
      (∀ g, Event.frameValid g ∉ evs) ∧ followEdges s.linkUp (linkEdges evs) = some t.linkUp ∧
      (f.classify s.params ≠ .channels → t.linkUp = s.linkUp ∧ t.lastChannelFrameTime = s.lastChannelFrameTime ∧
        t.channels = s.channels) ∧
      (f.classify s.params = .channels → t.linkUp = true ∧ t.lastChannelFrameTime = now ∧
        Event.channelsUpdated ∈ evs) ∧
      t = { s with
        linkUp := t.linkUp, lastChannelFrameTime := t.lastChannelFrameTime, channels := t.channels,
        events := t.events, freeCount := t.freeCount } := by
  rw [handOff_eq] at h
  cases hc : f.classify s.params <;> simp only [hc] at h <;> cases h
  · refine ⟨(if s.linkUp then [] else [.linkUp]) ++ [.channelsUpdated], ?_⟩
    cases hl : s.linkUp <;> simp [handleChannels_eq, hl, Event.reported, linkEdges, followEdges]
  · exact ⟨[.linkStatistics f.payload], by simp, by simp [Event.reported],
      by simp, by simp [linkEdges, followEdges], by simp, by simp, rfl⟩
  · exact ⟨[.gps f.payload], by simp, by simp [Event.reported],
      by simp, by simp [linkEdges, followEdges], by simp, by simp, rfl⟩
  · exact ⟨[], by simp, by simp,
      by simp, by simp [linkEdges, followEdges], by simp, by simp, rfl⟩
  · exact ⟨[], by simp, by simp,
      by simp, by simp [linkEdges, followEdges], by simp, by simp, rfl⟩

/-- One frame pass (R114). -/
theorem Progress.framePass {now : Word32} {s t u : State} (hv : s.headValid = true)
    (h : handOff now s.headFrame s = .next t) (h1 : discardFrame (s.headLen + 2) t = .next u) : Progress now s u := by
  obtain ⟨_, hp, hl, _⟩ := s.headValid_iff.1 hv
  obtain ⟨evs, a, b, c, d, e, f, g⟩ := handOff_cases h
  obtain ⟨_, _, rfl⟩ := discardFrame_cases (by omega) h1
  have hbuf : t.buf = s.buf := by rw [g]
  have hcur : t.cursor = s.cursor := by rw [g]
  have hf : s.headFrame.bytes = s.bytes.take (s.headLen + 2) := by
    rw [State.headFrame_bytes (by omega), State.memRead_eq_bytes s hl]
  exact {
    events := by
      refine ⟨.frameValid s.headFrame.bytes :: evs, by simpa using a, ?_, by simpa [linkEdges] using d, ?_, ?_, ?_⟩
      · simp [b, Event.reported, State.bytes_congr hbuf hcur, hf]
      · intro q hq
        rcases List.mem_cons.1 hq with hq | hq
        · cases hq; exact (validFrame_bytes _ _).2 (State.headFrame_valid hv)
        · exact absurd hq (c q)
      · intro hx
        by_cases hcl : s.headFrame.classify s.params = .channels
        · exact ⟨⟨_, by simp, reportsHeartbeat_of_channels hcl⟩, (f hcl).2.1⟩
        · obtain ⟨e1, e2, _⟩ := e hcl
          simp [e1, e2] at hx
      · intro hx
        by_cases hcl : s.headFrame.classify s.params = .channels
        · exact List.mem_cons_of_mem _ (f hcl).2.2
        · exact absurd (e hcl).2.2 hx
    link_mono := fun hx => by
      by_cases hcl : s.headFrame.classify s.params = .channels
      · exact (f hcl).1
      · rw [State.shifted_linkUp, (e hcl).1]; exact hx
    filled := fun _ => State.filled_shifted _ _
    cursor_le := by simp [hcur]
    rest := by
      rw [State.ext_iff] at g ⊢
      simpa using g.2.2 }

/-- The validation loop can do no more than its moves (R111). -/
theorem Progress.validateLoop {now : Word32} {n : Nat} {s t : State} (h : Machine.validateLoop now n s = .next t) :
    Progress now s t :=
  validateLoop_induct now (Progress now) (Progress.refl now) (fun _ _ _ => Progress.trans)
    (fun _ _ _ => Progress.discardOne) (fun _ _ _ => Progress.framePass) n s t h

/-! ### VALIDATE, DRAIN, OVERFLOW -/

/-- VALIDATE from a cursor inside the buffer (R120, R35). -/
theorem validateBuffer_spec (now : Word32) {s : State} (h : s.cursor ≤ s.params.cap) :
    ∃ t, validateBuffer now s = .next t ∧ Progress now s t ∧ t.Quiescent := by
  obtain ⟨t, ht⟩ := validateLoop_completes now s.cursor s h
  exact ⟨t, ht, Progress.validateLoop ht, validateLoop_quiescent now _ s t (Nat.le_refl _) ht⟩

/-- OVERFLOW finds nothing to do in a quiescent buffer (R126). -/
theorem discardIfFull_of_quiescent {s : State} (h : s.Quiescent) : discardIfFull s = .next s :=
  if_neg (Nat.ne_of_lt (State.cursor_lt_cap h))

theorem State.stale_iff {s : State} {now : Word32} : s.stale now = true ↔
    0 < s.cursor ∧ s.params.packetTimeoutMs < elapsed now s.lastByteTime := by simp [State.stale]

theorem State.linkExpired_iff {s : State} {now : Word32} : s.linkExpired now = true ↔
    s.linkUp = true ∧ s.params.failsafeMs < elapsed now s.lastChannelFrameTime := by
  rw [State.linkExpired, Bool.and_eq_true, decide_eq_true_iff]

/-- DRAIN with a cursor inside the buffer (R119). -/
theorem drainIfStale_eq {s : State} (now : Word32) (h : s.cursor ≤ s.params.cap) :
    drainIfStale now s = .next
      (if s.stale now then { s.emptied with events := s.events ++ s.bytes.map .rawByte } else s) := by
  unfold drainIfStale
  split
  · next hs => exact discardAll_eq (State.stale_iff.1 hs).1 h
  · rfl

/-- Whatever DRAIN answers is what `drainIfStale_eq` says: with the cursor outside the buffer it discards nothing. -/
theorem drainIfStale_cases {s t : State} {now : Word32} (h : drainIfStale now s = .next t) :
    t = if s.stale now then { s.emptied with events := s.events ++ s.bytes.map .rawByte } else s := by
  by_cases hc : s.cursor ≤ s.params.cap
  · rw [drainIfStale_eq now hc] at h
    exact (by simpa using h.symm)
  · unfold drainIfStale at h
    split at h
    · next hs =>
      obtain ⟨n, hn⟩ : ∃ n, s.cursor = n + 1 := ⟨s.cursor - 1, by have := (State.stale_iff.1 hs).1; omega⟩
      simp only [raise, hn, discardAll] at h
      obtain ⟨u, hu, _⟩ := Result.andThen_eq_next.1 h
      exact absurd (discardOne_cases hu).2.1 hc
    · next hs => rw [if_neg hs]; exact (by simpa using h.symm)

end Sys2Proof.Machine
end

