-- ==== Sys2Proof/Laws/Commands.lean ====
section
/-! SUPPORT. Once, what each command answers, and what a step can be. -/

namespace Sys2Proof.Machine

/-- RX_BYTE in framed mode with room for the byte: VALIDATE of the appended buffer, OVERFLOW doing nothing (R195, R126). -/
theorem execRxByte_framed {s : State} (b : Byte) (now : Word32) (hp : s.passthrough = false)
    (hc : s.cursor < s.params.cap) :
    ∃ t, execRxByte b now s = .next t ∧ validateBuffer now ((s.stampByte now).pushByte b) = .next t ∧
      Progress now ((s.stampByte now).pushByte b) t ∧ t.Quiescent := by
  obtain ⟨t, h1, h2, h3⟩ := validateBuffer_spec now (s := (s.stampByte now).pushByte b) (by simp; omega)
  refine ⟨t, ?_, h1, h2, h3⟩
  simp [execRxByte, hp, appendByte_eq b (show (s.stampByte now).cursor < (s.stampByte now).params.cap from hc), h1,
    discardIfFull_of_quiescent h3]

theorem execRxByte_passthrough {s : State} (b : Byte) (now : Word32) (hp : s.passthrough = true) :
    execRxByte b now s = .next ((s.stampByte now).emit (.rawByte b)) := by
  simp [execRxByte, hp]

/-- A framed RX_BYTE that answers had room for its byte. -/
theorem execRxByte_room {s t : State} {b : Byte} {now : Word32} (hp : s.passthrough = false)
    (h : execRxByte b now s = .next t) : s.cursor < s.params.cap := by
  simp only [execRxByte, State.stampByte_passthrough, hp, Bool.false_eq_true, if_false] at h
  obtain ⟨u, h1, _⟩ := Result.andThen_eq_next.1 h
  obtain ⟨v, h2, _⟩ := Result.andThen_eq_next.1 h1
  exact (appendByte_cases h2).1

/-- POLL with a cursor inside the buffer (R196). -/
theorem execPoll_eq {s : State} (now : Word32) (h : s.cursor ≤ s.params.cap) :
    execPoll now s = .next (checkLink now
      (if s.stale now then { s.emptied with events := s.events ++ s.bytes.map .rawByte } else s)) := by
  simp [execPoll, drainIfStale_eq now h]

/-- Whatever POLL answers is what `execPoll_eq` says. -/
theorem execPoll_cases {s t : State} {now : Word32} (h : execPoll now s = .next t) :
    t = checkLink now
      (if s.stale now then { s.emptied with events := s.events ++ s.bytes.map .rawByte } else s) := by
  obtain ⟨u, h1, h2⟩ := Result.andThen_eq_next.1 h
  cases h2
  rw [drainIfStale_cases h1]

/-- SET_PASSTHROUGH in one record update (R185). -/
theorem execSetPassthrough_eq (val : Bool) (speed : Option Word32) (s : State) :
    execSetPassthrough val speed s = .next { s with
      passthrough := val, events := s.events ++ .txFlush :: (speed.toList.map .setLineSpeed) } := by
  cases speed <;> simp [execSetPassthrough, State.emit, State.setMode]

/-- QUEUE_FRAME in one record update (R175, R176). -/
theorem execQueueFrame_eq (addr type : Byte) (payload : List Byte) (s : State) :
    execQueueFrame addr type payload s = .next (if s.txRefused payload.length then s
      else s.emit (.txWrite (Frame.build addr type payload).bytes)) := by
  unfold execQueueFrame
  split <;> rfl

/-- A step is the decoded instruction or a wait. -/
theorem step_cases (s : State) :
    (∃ i rest, decodePort s.port = .ok (i, rest) ∧ step s = exec i (s.accept rest)) ∨
    step s = .next (s.accept s.port) := by
  unfold step
  split
  · next i rest h => exact .inl ⟨i, rest, h, rfl⟩
  · exact .inr rfl

end Sys2Proof.Machine
end

