-- ==== Sys2Proof/Laws/Runs.lean ====
section
/-! SUPPORT. The five commands as a whole, runs of commands, and the buffer on the bytes of a frame. -/

namespace Sys2Proof.Machine

/-! ### Any command -/

/-- With room in the buffer every command answers a next state (R210). -/
theorem command_completes {i : Instr} {s : State} (hi : commandCode i = true) (hs : s.cursor < s.params.cap) :
    ∃ t, exec i s = .next t := by
  cases i <;> simp [commandCode] at hi
  case nop => exact ⟨s, rfl⟩
  case rxByte b now =>
    cases hp : s.passthrough
    · obtain ⟨t, h, _⟩ := execRxByte_framed b now hp hs; exact ⟨t, h⟩
    · exact ⟨_, execRxByte_passthrough b now hp⟩
  case poll now => exact ⟨_, execPoll_eq now (Nat.le_of_lt hs)⟩
  case setPassthrough v sp => exact ⟨_, execSetPassthrough_eq v sp s⟩
  case queueFrame a y q => exact ⟨_, execQueueFrame_eq a y q s⟩

/-- Every command keeps the buffer's invariant (R35). -/
theorem command_inv {i : Instr} {s t : State} (hi : commandCode i = true) (hs : s.Inv) (h : exec i s = .next t) :
    t.Inv := by
  cases i <;> simp [commandCode] at hi
  case nop => cases h; exact hs
  case rxByte b now =>
    have h : execRxByte b now s = .next t := h
    cases hp : s.passthrough
    · obtain ⟨u, h1, _, h3, h4⟩ := execRxByte_framed b now hp (execRxByte_room hp h)
      rw [h1] at h; cases h
      exact State.inv_of (h3.filled (State.filled_pushByte (s := s.stampByte now) hs.2.1 b)) h4
    · rw [execRxByte_passthrough b now hp] at h; cases h
      exact State.inv_congr rfl rfl rfl hs
  case poll now =>
    have h := execPoll_cases h
    subst h
    rw [checkLink_eq]
    split
    · exact State.inv_of rfl (.inl (by simp))
    · exact State.inv_congr rfl rfl rfl hs
  case setPassthrough v sp =>
    have h : execSetPassthrough v sp s = .next t := h
    rw [execSetPassthrough_eq] at h; cases h
    exact State.inv_congr rfl rfl rfl hs
  case queueFrame a y q =>
    have h : execQueueFrame a y q s = .next t := h
    rw [execQueueFrame_eq] at h; cases h
    split
    · exact hs
    · exact State.inv_congr rfl rfl rfl hs

/-- The books of one command balance (R63). -/
theorem command_books {i : Instr} {s t : State} (hi : commandCode i = true) (he : s.events = [])
    (h : exec i s = .next t) : s.bytes ++ receivedByte s i = takenBytes s i t.events ++ t.bytes := by
  cases i <;> simp [commandCode] at hi
  case nop => cases h; simp [receivedByte, takenBytes, he]
  case rxByte b now =>
    have h : execRxByte b now s = .next t := h
    cases hp : s.passthrough
    · obtain ⟨u, h1, _, h3, h4⟩ := execRxByte_framed b now hp (execRxByte_room hp h)
      rw [h1] at h; cases h
      obtain ⟨evs, a, c, _⟩ := h3.events
      rw [State.bytes_pushByte] at c
      simp only [State.pushByte_events, State.stampByte_events, he, List.nil_append] at a
      simp [receivedByte, takenBytes, hp, a]
      exact c
    · rw [execRxByte_passthrough b now hp] at h; cases h
      simp [receivedByte, takenBytes, hp]
      exact (State.bytes_congr rfl rfl)
  case poll now =>
    have h := execPoll_cases h
    subst h
    rw [checkLink_eq]
    simp only [receivedByte, takenBytes, List.append_nil]
    have hq : ∀ b : Bool, reportedBytes (if b then [Event.linkDown] else []) = [] := fun b => by cases b <;> rfl
    split
    · simp [reportedBytes_map_rawByte, he, hq]
      simp [State.bytes, State.memRead]
    · simp [he, hq]; rfl
  case setPassthrough v sp =>
    have h : execSetPassthrough v sp s = .next t := h
    rw [execSetPassthrough_eq] at h; cases h
    cases sp <;> simp [receivedByte, takenBytes, he, Event.reported] <;> rfl
  case queueFrame a y q =>
    have h : execQueueFrame a y q s = .next t := h
    rw [execQueueFrame_eq] at h; cases h
    split <;> simp [receivedByte, takenBytes, he, Event.reported] <;> rfl

/-- The link events of one command lead from the flag before it to the flag after it (R163). -/
theorem command_edges {i : Instr} {s t : State} (hi : commandCode i = true) (he : s.events = [])
    (h : exec i s = .next t) : followEdges s.linkUp (linkEdges t.events) = some t.linkUp := by
  cases i <;> simp [commandCode] at hi
  case nop => cases h; simp [he, linkEdges, followEdges]
  case rxByte b now =>
    have h : execRxByte b now s = .next t := h
    cases hp : s.passthrough
    · obtain ⟨u, h1, _, h3, h4⟩ := execRxByte_framed b now hp (execRxByte_room hp h)
      rw [h1] at h; cases h
      obtain ⟨evs, a, _, c, _⟩ := h3.events
      simp only [State.pushByte_events, State.stampByte_events, he, List.nil_append] at a
      rw [a]; exact c
    · rw [execRxByte_passthrough b now hp] at h; cases h
      simp [he, linkEdges, followEdges]
  case poll now =>
    have h := execPoll_cases h
    subst h
    generalize hu : (if s.stale now = true then _ else s : State) = u
    have h1 : u.linkUp = s.linkUp := by rw [← hu]; split <;> rfl
    have h2 : linkEdges u.events = [] := by
      rw [← hu]; split
      · simp [he, linkEdges_map_rawByte]
      · simp [he, linkEdges]
    rw [checkLink_eq]
    by_cases hx : u.linkExpired now = true
    · have := linkUp_of_expired hx
      have h3 : linkEdges [Event.linkDown] = [false] := rfl
      simp [hx, h2, h3, ← h1, this, followEdges]
    · simp [hx, h2, ← h1, followEdges]
  case setPassthrough v sp =>
    have h : execSetPassthrough v sp s = .next t := h
    rw [execSetPassthrough_eq] at h; cases h
    cases sp <;> simp [he, linkEdges, followEdges]
  case queueFrame a y q =>
    have h : execQueueFrame a y q s = .next t := h
    rw [execQueueFrame_eq] at h; cases h
    split <;> simp [he, linkEdges, followEdges]

/-! ### Runs -/

/-- A run of one command and more. -/
theorem runCommands_cons {i : Instr} {is : List Instr} {s u : State} {evs : List Event}
    (h : runCommands (i :: is) s = some (u, evs)) :
    ∃ t e2, exec i { s with events := [] } = .next t ∧ runCommands is t = some (u, e2) ∧ evs = t.events ++ e2 := by
  simp only [runCommands] at h
  split at h
  · next t ht =>
    split at h
    · next v e hv => cases h; exact ⟨t, e, ht, hv, rfl⟩
    · cases h
  · cases h
  · cases h

/-- Two runs, one after the other. -/
theorem runCommands_append (a b : List Instr) (s u v : State) (e f : List Event) (h1 : runCommands a s = some (u, e))
   (h2 : runCommands b u = some (v, f)) : runCommands (a ++ b) s = some (v, e ++ f) := by
  induction a generalizing s e with
  | nil => cases h1; simpa using h2
  | cons i is ih =>
    simp only [runCommands] at h1
    split at h1
    · next t ht =>
      split at h1
      · next w g hw => cases h1; simp [runCommands, ht, ih _ _ hw]
      · cases h1
    · cases h1
    · cases h1

/-! ### Frames in the buffer -/

/-- VALIDATE has nothing to do in a quiescent buffer (R111). -/
theorem validateBuffer_quiescent (now : Word32) {s : State} (h : s.Quiescent) : validateBuffer now s = .next s := by
  have : validateBuffer now s = validateLoop now (s.cursor+1) s := validateLoop_count now _ _ s (by omega) (by omega)
  rw [this, validateLoop_succ]
  rcases h with h | ⟨h1, h2, h3⟩
  · rw [if_pos h]
  · by_cases h4 : s.cursor < 2
    · rw [if_pos h4]
    · rw [if_neg h4, if_neg (by omega), if_pos h3]

theorem State.headLen_of_bytes {s : State} (h : 2 ≤ s.cursor) : s.headLen = (s.bytes.getD 1 0).toNat := by
  rw [List.getD, State.bytes_getElem?, if_pos (by omega)]; rfl

/-- A buffer that holds exactly a valid frame reads as that frame (R58). -/
theorem State.headFrame_of_bytes {s : State} {f : Frame} (hb : s.bytes = f.bytes) (hv : f.valid s.params = true) :
    s.headFrame = f ∧ s.headValid = true ∧ s.headLen + 2 = s.cursor := by
  have hc := s.bytes_length
  have v := (validFrame_bytes _ _).2 hv
  obtain ⟨v1, v2, v3, v4, v5⟩ := v
  rw [hb] at hc
  have hl : s.headLen = (f.bytes.getD 1 0).toNat := by rw [State.headLen_of_bytes (by omega), hb]
  have hcl : s.headLen + 2 = s.cursor := by omega
  have hm : s.memRead 2 (s.headLen - 1) = (f.bytes.drop 2).take (s.headLen - 1) := by
    rw [← hb]; apply List.ext_getElem?; intro j
    rw [State.memRead_getElem?, List.getElem?_take, List.getElem?_drop, State.bytes_getElem?]
    split
    · rw [if_pos (by omega)]
    · rfl
  have hk : s.readByte (s.headLen + 1) = f.bytes.getD (s.headLen + 1) 0 := by
    rw [← hb, List.getD, State.bytes_getElem?, if_pos (by omega)]; rfl
  have hvd : s.headValid = true := s.headValid_iff.2 ⟨by omega, by omega, by omega, by
    simp only [State.headChecksumOk, decide_eq_true_eq]; rw [hm, hk, hl]; exact v5.symm⟩
  refine ⟨?_, hvd, hcl⟩
  have : s.headFrame.bytes = f.bytes := by
    rw [State.headFrame_bytes (by omega), State.memRead_eq_bytes s (by omega), hb, List.take_of_length_le (by omega)]
  have h2 := Frame.ofBytes_bytes f
  rw [← this, Frame.ofBytes_bytes] at h2
  exact Option.some.inj h2

/-- One byte of a valid frame, not its last, is appended and nothing else happens (R122). -/
theorem rxByte_inside_frame {s : State} {p : List Byte} {b : Byte} {q : List Byte} {now : Word32} (hp : s.passthrough = false)
    (hb : s.bytes = p) (hv : ValidFrame s.params (p ++ b :: q)) (hq : q ≠ []) :
    ∃ t, exec (.rxByte b now) { s with events := [] } = .next t ∧ t.bytes = p ++ [b] ∧
      t = { s with buf := t.buf, cursor := t.cursor, lastByteTime := now, events := [] } := by
  obtain ⟨v1, v2, v3, v4, v5⟩ := hv
  have hlen := s.bytes_length
  rw [hb] at hlen
  have hql : 1 ≤ q.length := by rcases q with _ | ⟨x, q⟩; exact absurd rfl hq; simp
  simp only [List.length_append, List.length_cons] at v4
  have hcap : s.cursor < s.params.cap := by unfold Params.cap; omega
  set u := (({ s with events := [] } : State).stampByte now).pushByte b with hu
  have hub : u.bytes = p ++ [b] := by
    rw [hu, State.bytes_pushByte]; congr 1
  have hquiet : u.Quiescent := by
    by_cases h2 : u.cursor < 2
    · exact .inl h2
    · right
      have hc : u.cursor = s.cursor + 1 := by simp [hu]
      have : (p ++ b :: q).getD 1 0 = (p ++ [b]).getD 1 0 := by
        rw [show p ++ b :: q = (p ++ [b]) ++ q by simp, List.getD, List.getD, List.getElem?_append_left (by simp; omega)]
      have hpar : u.params = s.params := by simp [hu]
      rw [State.headLen_of_bytes (by omega), hub, ← this, hpar]
      exact ⟨v2, v3, by omega⟩
  refine ⟨u, ?_, hub, rfl⟩
  have : exec (.rxByte b now) { s with events := [] } = execRxByte b now { s with events := [] } := rfl
  rw [this]
  obtain ⟨t, h1, h2, _⟩ := execRxByte_framed (s := { s with events := [] }) b now hp hcap
  rw [validateBuffer_quiescent now hquiet] at h2
  cases h2; exact h1

end Sys2Proof.Machine
end

