-- ==== Sys2Proof/Tests/Slice0.lean ====
section
/-! SUPPORT. Tests with results taken from the spec's vectors (`95_test_vectors.md`) or written out from its encodings, the
smoke tests of WellFormed, and for every obligation with hypotheses a witness that meets them. -/

namespace Sys2Proof.Machine.Tests

set_option Elab.async false

/-! ### Helpers -/

/-- The reset state with these bytes in the buffer. -/
def held (bs : List Byte) : State := { State.reset with buf := Memory.ofBytesFrom 0 bs, cursor := bs.length }

/-- That state with the link up since `t`. -/
def linked (s : State) (t : Word32) : State := { s with linkUp := true, lastChannelFrameTime := t }

/-- The answer is a next state that satisfies `P`. -/
def ends (r : Result) (P : State → Bool) : Bool :=
  match r with
  | .next t => P t
  | .fault _ => false
  | .refused _ => false

theorem ends_elim {r : Result} {P : State → Bool} (h : ends r P = true) : ∃ t, r = .next t ∧ P t = true := by
  cases r <;> simp_all [ends]

/-- The decoder's answer is `a`. -/
def decodes {α : Type} [DecidableEq α] (r : Except DecodeError α) (a : α) : Bool := decide (r.toOption = some a)

def mini : List Byte := [0xC8, 0x03, 0x7F, 0x55, 0x37]
def other : List Byte := [0xEA, 0x03, 0x02, 0xAA, 0x0B]
def scen : List Byte := [0xC8, 0x18, 0x16] ++ List.replicate 22 0 ++ [0xEF]
def ascending (n : Nat) : List Byte := (List.range n).map (BitVec.ofNat 8)
def big : List Byte := [0xC8, 0x3E, 0x7F] ++ ascending 60 ++ [0x0E]
def ramp : List Byte :=
  [0xC8, 0x18, 0x16, 0xAC, 0x80, 0x08, 0x5D, 0xB0, 0xC3, 0x23, 0x50, 0x11, 0x0C, 0x6D] ++
  [0xCC, 0x83, 0x21, 0x25, 0xF1, 0xC9, 0x55, 0xE0, 0x92, 0x18, 0xD1, 0x11]

def miniFrame : Frame := ⟨0xC8, 0x03, 0x7F, [0x55], 0x37⟩
def otherFrame : Frame := ⟨0xEA, 0x03, 0x02, [0xAA], 0x0B⟩
def scenFrame : Frame := ⟨0xC8, 0x18, 0x16, List.replicate 22 0, 0xEF⟩
def shortChannels : Frame := ⟨0xC8, 0x03, 0x16, [0x01], 0x5F⟩
def statsFrame : Frame := ⟨0xC8, 0x0C, 0x14, [1, 2, 3, 4, 5, 6, 7, 8, 9, 10], 0x68⟩
def gpsPayload : List Byte :=
  [0x1C, 0x9C, 0x38, 0x00, 0x05, 0xF5, 0xE1, 0x00, 0x00, 0x64, 0x46, 0x50, 0x03, 0xE8, 0x09]
def gpsFrame : Frame := ⟨0xC8, 0x11, 0x02, gpsPayload, 0xA4⟩

/-! ### WellFormed refuses each ill-formed term, and accepts its neighbour -/

theorem test_wf_queueFrame : (Instr.queueFrame 0 0 (List.replicate 256 0)).wf Params.default = false ∧
    (Instr.queueFrame 0 0 (List.replicate 255 0)).wf Params.default = true := by decide +kernel
theorem test_wf_shiftN : (Instr.shiftN 4).wf Params.default = false ∧ (Instr.shiftN 65).wf Params.default = false ∧
    (Instr.shiftN 5).wf Params.default = true ∧ (Instr.shiftN 64).wf Params.default = true := by decide +kernel
/-- A wrong checksum, a wrong payload size, and a frame of another class. -/
theorem test_wf_frameChannels :
    (Instr.frameChannels { shortChannels with checksum := 0x5E } 0).wf Params.default = false ∧
    (Instr.frameChannels { shortChannels with payload := [1, 2] } 0).wf Params.default = false ∧
    (Instr.frameChannels miniFrame 0).wf Params.default = false ∧
    (Instr.frameChannels shortChannels 0).wf Params.default = true := by decide +kernel
theorem test_wf_frameLinkStats : (Instr.frameLinkStats { statsFrame with checksum := 0 }).wf Params.default = false ∧
    (Instr.frameLinkStats gpsFrame).wf Params.default = false ∧
    (Instr.frameLinkStats statsFrame).wf Params.default = true := by decide +kernel
theorem test_wf_frameGps : (Instr.frameGps { gpsFrame with declaredLength := 0x12 }).wf Params.default = false ∧
    (Instr.frameGps statsFrame).wf Params.default = false ∧ (Instr.frameGps gpsFrame).wf Params.default = true := by
  decide +kernel
/-- An empty payload, declared length 2, is no frame (R72), and a foreign address is another class. -/
theorem test_wf_frameUnknownType : (Instr.frameUnknownType ⟨0xC8, 2, 0x28, [], 0x8D⟩).wf Params.default = false ∧
    (Instr.frameUnknownType { miniFrame with destinationAddress := 0xEA }).wf Params.default = false ∧
    (Instr.frameUnknownType miniFrame).wf Params.default = true := by decide +kernel
theorem test_wf_frameNotLocal : (Instr.frameNotLocal { otherFrame with checksum := 0x0A }).wf Params.default = false ∧
    (Instr.frameNotLocal miniFrame).wf Params.default = false ∧
    (Instr.frameNotLocal otherFrame).wf Params.default = true := by decide +kernel
theorem test_wf_frameValid : (Instr.frameValid (ascending 4)).wf Params.default = false ∧
    (Instr.frameValid (ascending 65)).wf Params.default = false ∧
    (Instr.frameValid (ascending 64)).wf Params.default = true := by decide +kernel
theorem test_wf_records : (Instr.linkStatistics []).wf Params.default = false ∧
    (Instr.linkStatistics (ascending 61)).wf Params.default = false ∧ (Instr.gps []).wf Params.default = false ∧
    (Instr.gps (ascending 61)).wf Params.default = false ∧ (Instr.gps (ascending 60)).wf Params.default = true := by
  decide +kernel
theorem test_wf_txWrite : (Instr.txWrite (ascending 3)).wf Params.default = false ∧
    (Instr.txWrite (ascending 65)).wf Params.default = false ∧
    (Instr.txWrite [0xEC, 0x02, 0x28, 0x8D]).wf Params.default = true := by decide +kernel

/-! ### Decoding: words written out from R78, R79, R70 and D2 -/

/-- The pin overrides the code beside it. -/
theorem test_decode_reset : decodes (decodePort [⟨true, 0b010, 0xFF, 7⟩]) (.reset, []) := by decide +kernel
theorem test_decode_nop : decodes (decodePort [⟨false, 0b000, 0xFF, 0xFFFFFFFF⟩]) (.nop, []) := by decide +kernel
theorem test_decode_rxByte : decodes (decodePort [⟨false, 0b001, 0xC8, 0x0000000A⟩]) (.rxByte 0xC8 10, []) := by
  decide +kernel
theorem test_decode_poll : decodes (decodePort [⟨false, 0b010, 0, 0x00000B55⟩]) (.poll 2901, []) := by decide +kernel
/-- Programs P3 lines 3 and 8: bit 0 is `val`, bit 1 is `speed_valid`. -/
theorem test_decode_setPassthrough :
    decodes (decodePort [⟨false, 0b011, 0x01, 5⟩]) (.setPassthrough true none, []) ∧
    decodes (decodePort [⟨false, 0b011, 0x02, 0x000668A0⟩]) (.setPassthrough false (some 420000), []) := by decide +kernel
/-- Address, type, count, then the payload (D2); a following command stays on the port. -/
theorem test_decode_queueFrame :
    decodes (decodePort ([0xEC, 0x28, 0x02, 0xAA, 0xBB].map queueBeat ++ [⟨false, 0b000, 0, 0⟩]))
      (.queueFrame 0xEC 0x28 [0xAA, 0xBB], [⟨false, 0b000, 0, 0⟩]) := by decide +kernel
theorem test_decode_reserved : decodes (decodePort [⟨false, 0b101, 0, 0⟩]) (.reserved5, []) ∧
    decodes (decodePort [⟨false, 0b110, 0, 0⟩]) (.reserved6, []) ∧
    decodes (decodePort [⟨false, 0b111, 0, 0⟩]) (.reserved7, []) := by decide +kernel
/-- R200: another command's beat waits; a reset beat behind it abandons the QUEUE_FRAME (R240). -/
theorem test_decode_queueFrame_waiting :
    decodes (decodePort [⟨false, 0b100, 0xEC, 0⟩, ⟨false, 0b010, 0, 9⟩, ⟨false, 0b100, 0x28, 0⟩, ⟨false, 0b100, 0, 0⟩])
      (.queueFrame 0xEC 0x28 [], [⟨false, 0b010, 0, 9⟩]) ∧
    decodes (decodePort [⟨false, 0b100, 0xEC, 0⟩, ⟨false, 0b010, 0, 9⟩, ⟨true, 0, 0, 0⟩, ⟨false, 0b000, 0, 0⟩])
      (.reset, [⟨false, 0b000, 0, 0⟩]) := by decide +kernel
theorem test_decode_frames :
    decodes (decodeFrame Params.default 10 scen) (.frameChannels scenFrame 10) ∧
    decodes (decodeFrame Params.default 5 ([0xC8, 0x0C, 0x14, 1, 2, 3, 4, 5, 6, 7, 8, 9, 10, 0x68]))
      (.frameLinkStats statsFrame) ∧
    decodes (decodeFrame Params.default 5 ([0xC8, 0x11, 0x02] ++ gpsPayload ++ [0xA4])) (.frameGps gpsFrame) ∧
    decodes (decodeFrame Params.default 5 mini) (.frameUnknownType miniFrame) ∧
    decodes (decodeFrame Params.default 5 other) (.frameNotLocal otherFrame) := by decide +kernel
/-- T14, T11b, T4: empty payload, oversized length, wrong checksum, cut short. -/
theorem test_decode_frames_refused :
    (decodeFrame Params.default 0 [0xC8, 0x02, 0x16, 0xD3]).toOption = none ∧
    (decodeFrame Params.default 0 ([0xC8, 0x3F, 0x7F] ++ ascending 61 ++ [0x00])).toOption = none ∧
    (decodeFrame Params.default 0 [0xC8, 0x03, 0x7F, 0x55, 0x00]).toOption = none ∧
    (decodeFrame Params.default 0 mini.dropLast).toOption = none ∧
    (decodeFrame Params.default 0 []).toOption = none := by decide +kernel
theorem test_decode_events_of_one_beat :
    decodes (decodeEvent [⟨0x1, 0x55, true, true⟩]) (.rawByte 0x55, []) ∧
    decodes (decodeEvent [⟨0x3, 0, true, true⟩]) (.linkUp, []) ∧
    decodes (decodeEvent [⟨0x4, 0, true, true⟩]) (.linkDown, []) ∧
    decodes (decodeEvent [⟨0x5, 0, true, true⟩]) (.channelsUpdated, []) ∧
    decodes (decodeEvent [⟨0x9, 0, true, true⟩]) (.txFlush, []) ∧
    decodes (decodeEvent [⟨0xA, 0x000668A0, true, true⟩]) (.setLineSpeed 420000, []) := by decide +kernel
theorem test_decode_events_of_many_beats :
    decodes (decodeEvent [⟨2, 0xC8, true, false⟩, ⟨2, 3, false, false⟩, ⟨2, 0x7F, false, false⟩, ⟨2, 0x55, false, false⟩,
      ⟨2, 0x37, false, true⟩]) (.frameValid mini, []) ∧
    decodes (decodeEvent [⟨6, 1, true, false⟩, ⟨6, 2, false, true⟩]) (.linkStatistics [1, 2], []) ∧
    decodes (decodeEvent [⟨7, 9, true, true⟩, ⟨3, 0, true, true⟩]) (.gps [9], [⟨3, 0, true, true⟩]) ∧
    decodes (decodeEvent [⟨8, 0xEC, true, false⟩, ⟨8, 2, false, false⟩, ⟨8, 0x28, false, false⟩, ⟨8, 0x8D, false, true⟩])
      (.txWrite [0xEC, 0x02, 0x28, 0x8D], []) := by decide +kernel
theorem test_decode_events_refused : (decodeEvent [⟨0, 0, true, true⟩]).toOption = none ∧
    (decodeEvent [⟨0xB, 0, true, true⟩]).toOption = none ∧ (decodeEvent [⟨3, 0, true, false⟩]).toOption = none ∧
    (decodeEvent [⟨2, 0, true, false⟩, ⟨7, 0, false, true⟩]).toOption = none := by decide +kernel
/-- The opcode table's words (log 10). -/
theorem test_table_words : decodeTableWord 8 4 = some (.queueFrame 0 0 []) ∧ decodeTableWord 8 10 = some (.setLineSpeed 0) ∧
    decodeTableWord 24 0xC80302 = some (.frameGps ⟨0xC8, 3, 2, [0], crc8 [2, 0]⟩) ∧ decodeTableWord 8 16 = none := by
  decide +kernel

/-! ### The machine, one step or operation each -/

/-- T22: the link is not announced down. -/
theorem test_reset : ends (exec .reset (linked (held [0xC8]) 10))
    (fun t => t.cursor == 0 && t.buf == [] && !t.linkUp && t.lastChannelFrameTime == 0 && t.events == []) := by decide +kernel
/-- T6: two frames uncovered behind a false head. -/
theorem test_rxByte_false_head : ends (exec (.rxByte 0x0B 1) (held ([0x11, 0x0A] ++ mini ++ other.dropLast)))
    (fun t => t.cursor == 0 && t.events == [.rawByte 0x11, .rawByte 0x0A, .frameValid mini, .frameValid other]) := by
  decide +kernel
/-- T11: the largest frame fills the buffer and is received. -/
theorem test_rxByte_largest : ends (exec (.rxByte 0x0E 1) (held big.dropLast))
    (fun t => t.cursor == 0 && t.events == [.frameValid big]) := by decide +kernel
/-- T21: the drain comes before the link-down. -/
theorem test_poll_both : ends (exec (.poll 1500) (linked (held [0xC8]) 0))
    (fun t => t.cursor == 0 && !t.linkUp && t.events == [.rawByte 0xC8, .linkDown]) := by decide +kernel
/-- T10: the drain runs in passthrough mode too. -/
theorem test_poll_passthrough :
    ends (exec (.poll 151) { held [0xC8, 0x18] with passthrough := true, lastByteTime := 50 })
      (fun t => t.passthrough && t.events == [.rawByte 0xC8, .rawByte 0x18]) := by decide +kernel
theorem test_setPassthrough : ends (exec (.setPassthrough false (some 420000)) { held [0xC8] with passthrough := true })
    (fun t => !t.passthrough && t.cursor == 1 && t.events == [.txFlush, .setLineSpeed 420000]) := by decide +kernel
/-- T15. -/
theorem test_queueFrame :
    ends (exec (.queueFrame 0xC8 0x08 [0x00, 0x4A, 0x01, 0x2C, 0x00, 0x64, 0x32, 0x05]) (linked (held []) 10))
      (fun t => t.events == [.txWrite [0xC8, 0x0A, 0x08, 0x00, 0x4A, 0x01, 0x2C, 0x00, 0x64, 0x32, 0x05, 0xEB]]) := by
  decide +kernel
/-- T15: the empty and the largest payload are accepted, one byte more is not. -/
theorem test_queueFrame_sizes :
    ends (exec (.queueFrame 0xEC 0x28 []) (linked (held []) 10))
      (fun t => t.events == [.txWrite [0xEC, 0x02, 0x28, 0x8D]]) ∧
    ends (exec (.queueFrame 0xC8 0x7F (ascending 60)) (linked (held []) 10)) (fun t => t.events == [.txWrite big]) ∧
    ends (exec (.queueFrame 0xC8 0x7F (ascending 61)) (linked (held []) 10)) (fun t => t.events == []) := by decide +kernel
/-- T4: the wrong checksum's frame is discarded byte by byte. -/
theorem test_validate_bad_checksum : ends (exec (.validate 1) (held [0xC8, 0x03, 0x7F, 0x55, 0x00]))
    (fun t => t.bytes == [0x00] && t.events == [.rawByte 0xC8, .rawByte 0x03, .rawByte 0x7F, .rawByte 0x55]) := by
  decide +kernel
/-- T14, T11b: lengths 2 and 63 are implausible. -/
theorem test_validate_bad_length :
    ends (exec (.validate 1) (held [0xC8, 0x02])) (fun t => t.bytes == [0x02] && t.events == [.rawByte 0xC8]) ∧
    ends (exec (.validate 1) (held [0xC8, 0x3F])) (fun t => t.bytes == [0x3F] && t.events == [.rawByte 0xC8]) := by
  decide +kernel
theorem test_append : ends (exec (.append 0x18) (held [0xC8])) (fun t => t.bytes == [0xC8, 0x18]) := by decide +kernel
theorem test_shift1 : ends (exec .shift1 (held [0xFF, 0xC8]))
    (fun t => t.bytes == [0xC8] && t.events == [.rawByte 0xFF]) := by decide +kernel
/-- T18: the start of the next frame moves to the front. -/
theorem test_shiftN : ends (exec (.shiftN 5) (held (mini ++ [0xC8, 0x18])))
    (fun t => t.bytes == [0xC8, 0x18] && t.events == []) := by decide +kernel
theorem test_overflow : ends (exec .overflow (held big)) (fun t => t.cursor == 0 && t.events == []) := by decide +kernel
/-- T7: exactly the threshold does not drain, one more does. -/
theorem test_drain_boundary :
    ends (exec (.drain 1100) { held [0xC8, 0x18] with lastByteTime := 1000 }) (fun t => t.cursor == 2 && t.events == []) ∧
    ends (exec (.drain 1101) { held [0xC8, 0x18] with lastByteTime := 1000 })
      (fun t => t.cursor == 0 && t.events == [.rawByte 0xC8, .rawByte 0x18]) := by decide +kernel
/-- T9: elapsed time across the wrap of the clock. -/
theorem test_drain_wrap :
    ends (exec (.drain 0x54) { held [0xC8] with lastByteTime := 0xFFFFFFF0 }) (fun t => t.cursor == 1) ∧
    ends (exec (.drain 0x55) { held [0xC8] with lastByteTime := 0xFFFFFFF0 }) (fun t => t.cursor == 0) := by decide +kernel
/-- T12: a channel frame for another address touches nothing and stays for SHIFTN; T16 with a byte behind the frame. -/
theorem test_dispatch_valid_head :
    ends (exec (.dispatch 5) (held ([0xEE] ++ scen.drop 1)))
      (fun t => !t.linkUp && t.cursor == 26 && t.events == [.frameValid ([0xEE] ++ scen.drop 1)]) ∧
    ends (exec (.dispatch 5) (held (statsFrame.bytes ++ [0xC8])))
      (fun t => t.events == [.frameValid statsFrame.bytes, .linkStatistics [1, 2, 3, 4, 5, 6, 7, 8, 9, 10]]) := by
  decide +kernel
/-- The pseudocode of R140 on a head whose checksum is wrong. -/
theorem test_dispatch_any_head : ends (exec (.dispatch 5) (held [0xC8, 0x03, 0x7F, 0x55, 0x00]))
    (fun t => t.cursor == 5 && t.events == [.frameValid [0xC8, 0x03, 0x7F, 0x55, 0x00]]) := by decide +kernel
/-- T19b: no second LINK_UP. -/
theorem test_linkTouch_up : ends (exec (.linkTouch 120) (linked (held []) 100))
    (fun t => t.linkUp && t.lastChannelFrameTime == 120 && t.events == []) := by decide +kernel
/-- T8, T9: exactly the threshold keeps the link, one more takes it down, across the wrap too. -/
theorem test_linkCheck_boundary :
    ends (exec (.linkCheck 6000) (linked (held []) 5000)) (fun t => t.linkUp && t.events == []) ∧
    ends (exec (.linkCheck 6001) (linked (held []) 5000)) (fun t => !t.linkUp && t.events == [.linkDown]) ∧
    ends (exec (.linkCheck 0x2E8) (linked (held []) 0xFFFFFF00)) (fun t => t.linkUp) ∧
    ends (exec (.linkCheck 0x2E9) (linked (held []) 0xFFFFFF00)) (fun t => !t.linkUp) := by decide +kernel
/-- The table of `95_test_vectors.md` section 2.1. -/
theorem test_crc8 : ends (exec (.crc8 [0x31, 0x32, 0x33, 0x34, 0x35, 0x36, 0x37, 0x38, 0x39]) (held []))
    (fun t => t.crcOut == 0xBC) ∧
    ends (exec (.crc8 (0x02 :: gpsPayload)) (held [])) (fun t => t.crcOut == 0xA4) ∧
    ends (exec (.crc8 (0x7F :: ascending 60)) (held [])) (fun t => t.crcOut == 0x0E) := by decide +kernel
/-- T24 RAMP. -/
theorem test_chDecode_ramp : ends (exec .chDecode (held ramp)) (fun t => t.events == [] && t.channels.toList ==
    [1000, 1061, 1122, 1183, 1244, 1305, 1366, 1427, 1488, 1549, 1610, 1671, 1732, 1793, 1854, 1915]) := by decide +kernel
/-- R144 on 25 buffered bytes that are no frame yet. -/
theorem test_chDecode_incomplete : ends (exec .chDecode (held (ramp.take 25))) (fun t => t.channels.toList ==
    [1000, 1061, 1122, 1183, 1244, 1305, 1366, 1427, 1488, 1549, 1610, 1671, 1732, 1793, 1854, 1915]) := by decide +kernel
/-- T1. -/
theorem test_frameChannels : ends (exec (.frameChannels scenFrame 10) (held []))
    (fun t => t.linkUp && t.lastChannelFrameTime == 10 && t.events == [.frameValid scen, .linkUp, .channelsUpdated] &&
      t.channels.toList == List.replicate 16 896) := by decide +kernel
/-- T13: too short a payload still touches the link. -/
theorem test_frameChannels_short : ends (exec (.frameChannels shortChannels 7) (held []))
    (fun t => t.linkUp && t.lastChannelFrameTime == 7 &&
      t.events == [.frameValid [0xC8, 0x03, 0x16, 0x01, 0x5F], .linkUp, .channelsUpdated]) := by decide +kernel
/-- T17, and the two fields its consumer reads. -/
theorem test_frameGps : ends (exec (.frameGps gpsFrame) (held []))
    (fun t => t.events == [.frameValid ([0xC8, 0x11, 0x02] ++ gpsPayload ++ [0xA4]), .gps gpsPayload] && !t.linkUp) ∧
    bigEndianField gpsPayload 0 4 = 480000000 ∧ bigEndianField gpsPayload 8 2 = 100 := by decide +kernel
/-- T23. -/
theorem test_rescale : [0, 1, 171, 172, 173, 174, 272, 991, 992, 1810, 1811, 1812, 2047].map (rescale Params.default) =
    [896, 896, 1000, 1000, 1000, 1001, 1061, 1499, 1500, 1999, 2000, 2000, 2143] := by decide +kernel
/-- T10, as a step from the port; the next beat stays. -/
theorem test_step_rxByte : ends (step { held [0xC8, 0x18] with
      passthrough := true, port := [⟨false, 0b001, 0x55, 3⟩, ⟨false, 0b000, 0, 0⟩], events := [.linkUp] })
    (fun t => t.bytes == [0xC8, 0x18] && t.lastByteTime == 3 && t.events == [.rawByte 0x55] &&
      t.port == [⟨false, 0b000, 0, 0⟩]) := by decide +kernel
/-- A command presented inside an unfinished QUEUE_FRAME waits, and so does the block (U9). -/
theorem test_step_waits : ends (step { held [] with port := [⟨false, 0b100, 1, 0⟩, ⟨false, 0b000, 1, 0⟩] })
    (fun t => t.port.length == 2 && t.events == []) := by decide +kernel
/-- The host's placement runs a frame-class word as the first step after reset (log 10). -/
theorem test_withFetchWord_frame : ends (step (State.reset.withFetchWord 24 0xC81816))
    (fun t => t.linkUp && t.cursor == 0 && t.events == [.frameValid scen, .linkUp, .channelsUpdated]) := by decide +kernel

/-! ### Witnesses: states and operands that meet each obligation's hypotheses -/

def pin : Beat := ⟨true, 0b010, 0, 0⟩
def idleBeat : Beat := ⟨false, 0b000, 0, 0⟩

theorem witness_ResetPinOverridesPort (k : Nat) (h : k = 0 ∨ k = 4) :
    [0xAA, 0xBB].length ≤ 255 ∧ k < (queueFrameBeats 0xEC 0x28 [0xAA, 0xBB]).length ∧ pin.rst = true ∧
    ({ held [] with port := (queueFrameBeats 0xEC 0x28 [0xAA, 0xBB]).take k ++ pin :: [idleBeat] } : State).port =
      (queueFrameBeats 0xEC 0x28 [0xAA, 0xBB]).take k ++ pin :: [idleBeat] := by
  rcases h with rfl | rfl <;> decide +kernel
theorem witness_StepRunsDecodedInstruction :
    decodePort ({ held [] with port := [⟨false, 0b010, 0, 9⟩, idleBeat] } : State).port = .ok (.poll 9, [idleBeat]) := rfl
theorem witness_StepRunsPresentedCommand (i : Instr) (bs : List Beat)
    (h : (i, bs) = (.queueFrame 0 1 (List.replicate 255 7), queueFrameBeats 0 1 (List.replicate 255 7)) ∨
      (i, bs) = (.reset, [⟨true, 0, 0, 0⟩])) :
    i.wf ({ held [] with port := bs ++ [pin] } : State).params = true ∧ encode i = .port bs ∧
      ({ held [] with port := bs ++ [pin] } : State).port = bs ++ [pin] := by
  rcases h with h | h <;> cases h <;> decide +kernel
theorem witness_StepWaitsForWholeCommand (k : Nat) (h : k = 0 ∨ k = 4) :
    [0xAA, 0xBB].length ≤ 255 ∧ k < (queueFrameBeats 0xEC 0x28 [0xAA, 0xBB]).length ∧
    ({ held [] with port := (queueFrameBeats 0xEC 0x28 [0xAA, 0xBB]).take k } : State).port =
      (queueFrameBeats 0xEC 0x28 [0xAA, 0xBB]).take k := by
  rcases h with rfl | rfl <;> decide +kernel
/-- Its second clause, after the first beat and before the last. -/
theorem witness_StepWaitsForWholeCommand_other (k : Nat) (h : k = 1 ∨ k = 4) :
    [0xAA, 0xBB].length ≤ 255 ∧ k < (queueFrameBeats 0xEC 0x28 [0xAA, 0xBB]).length ∧ 1 ≤ k ∧ idleBeat.rst = false ∧
    idleBeat.op ≠ 0b100 ∧
    (let b := queueFrameBeats 0xEC 0x28 [0xAA, 0xBB]
     ({ held [] with port := b.take k ++ idleBeat :: (b.drop k ++ [pin]) } : State).port =
       b.take k ++ idleBeat :: (b.drop k ++ [pin])) := by
  rcases h with rfl | rfl <;> decide +kernel
theorem witness_PortEncodingRoundTrip : (Instr.queueFrame 0 1 (List.replicate 255 7)).wf Params.default = true ∧
    encode (.queueFrame 0 1 (List.replicate 255 7)) = .port (queueFrameBeats 0 1 (List.replicate 255 7)) := by decide +kernel
theorem witness_FrameEncodingRoundTrip : (Instr.frameChannels shortChannels 7).wf Params.default = true ∧
    encode (.frameChannels shortChannels 7) = .wire [0xC8, 0x03, 0x16, 0x01, 0x5F] ∧
    ∀ f t, Instr.frameChannels shortChannels 7 = .frameChannels f t → t = 7 :=
  ⟨by decide +kernel, by decide +kernel, fun f t h => by cases h; rfl⟩
theorem witness_EventEncodingRoundTrip : (Instr.ofEvent (.frameValid big)).wf Params.default = true ∧
    (Instr.ofEvent (.txWrite [0xEC, 0x02, 0x28, 0x8D])).wf Params.default = true := by decide +kernel
theorem witness_WireDecoderAcceptsValidFrames : decodeFrame Params.default 0 big =
    .ok (.frameUnknownType ⟨0xC8, 0x3E, 0x7F, ascending 60, 0x0E⟩) ∧ ValidFrame Params.default big ∧
    ValidFrame Params.default mini := by decide +kernel
theorem witness_Crc8FollowsItsSteps : (0x80 : Byte).getLsbD 7 = true ∧ (0x7F : Byte).getLsbD 7 = false := by decide +kernel
theorem witness_CrcLaws : [0x16, 0x00].length = [0x7F, 0x55].length ∧ (0 < 8 ∧ 7 < 8) ∧
    miniFrame.valid Params.default = true := by decide +kernel
theorem witness_AppendStoresByte : (held (ascending 63)).cursor < (held (ascending 63)).params.cap ∧
    (held big.dropLast).Inv := by decide +kernel
theorem witness_Shift1SurfacesLeadingByte (s : State) (h : s = held [0xC8] ∨ s = held big) :
    1 ≤ s.cursor ∧ s.cursor ≤ s.params.cap := by rcases h with rfl | rfl <;> decide +kernel
theorem witness_ShiftNDiscardsFrame (s : State) (n : Nat) (h : (s, n) = (held (mini ++ [0xC8]), 5) ∨ (s, n) = (held big, 64) ∨
    (s, n) = (held [], 0)) : n ≤ s.cursor ∧ s.cursor ≤ s.params.cap := by
  rcases h with h | h | h <;> cases h <;> decide +kernel
theorem witness_LeftShiftIsSuffix (k : Nat) (h : k = 1 ∨ k = 5) : 1 ≤ k ∧ k ≤ (held mini).cursor := by
  rcases h with rfl | rfl <;> decide +kernel
theorem witness_DiscardsScrubStaleLocations :
    exec .shift1 (held mini) = .next { held [0x03, 0x7F, 0x55, 0x37] with events := [.rawByte 0xC8] } ∧
    exec (.shiftN 5) (held (mini ++ [0xC8])) = .next (held [0xC8]) ∧
    (held big).cursor = (held big).params.cap ∧ exec .overflow (held big) = .next (held []) :=
  ⟨rfl, rfl, by decide +kernel, rfl⟩
theorem witness_InternalOperationsStopOutsidePreconditions :
    (held big).params.cap ≤ (held big).cursor ∧ (held []).cursor = 0 ∧ (held mini).cursor < 6 := by decide +kernel
theorem witness_OverflowDiscardsFullBuffer : (held big).cursor = (held big).params.cap ∧
    (held big.dropLast).cursor ≠ (held big.dropLast).params.cap := by decide +kernel
/-- One state for each clause, at the boundary of its range. -/
theorem witness_ValidateFollowsItsSteps :
    (held [0xC8]).cursor < 2 ∧
    (2 ≤ (held [0xC8, 0x02]).cursor ∧ (held [0xC8, 0x02]).headLen < 3) ∧
    (held [0xC8, 0x3F]).params.maxLen < (held [0xC8, 0x3F]).headLen ∧
    (3 ≤ (held mini).headLen ∧ (held mini).headLen ≤ (held mini).params.maxLen ∧
      (held mini).headLen + 2 ≤ (held mini).cursor ∧
      crc8 ((held mini).memRead 2 ((held mini).headLen - 1)) = (held mini).readByte ((held mini).headLen + 1)) ∧
    (let s := held [0xC8, 0x03, 0x7F, 0x55, 0x36]
     3 ≤ s.headLen ∧ s.headLen ≤ s.params.maxLen ∧ s.headLen + 2 ≤ s.cursor ∧
      crc8 (s.memRead 2 (s.headLen - 1)) ≠ s.readByte (s.headLen + 1)) ∧
    (let s := held big.dropLast
     2 ≤ s.cursor ∧ 3 ≤ s.headLen ∧ s.headLen ≤ s.params.maxLen ∧ s.cursor < s.headLen + 2 ∧ s.cursor ≤ s.params.cap) := by
  decide +kernel
theorem witness_ValidateEndsQuiescent : (held big).cursor ≤ (held big).params.cap ∧ (held big).Filled := by decide +kernel
theorem witness_OverflowNeverFires : (held big).cursor ≤ (held big).params.cap ∧
    ∃ t, exec (.validate 1) (held big) = .next t := by
  have h : (held big).cursor ≤ (held big).params.cap := by decide +kernel
  obtain ⟨t, ht, _⟩ := validateBuffer_spec 1 h
  exact ⟨h, t, ht⟩
theorem witness_DrainSurfacesStaleBytes :
    (let s := held [0xC8]; s.cursor ≤ s.params.cap ∧ 0 < s.cursor ∧ s.params.packetTimeoutMs < (101 - s.lastByteTime).toNat) ∧
    (let s := held [0xC8]; (100 - s.lastByteTime).toNat ≤ s.params.packetTimeoutMs) ∧ (held []).cursor = 0 := by
  decide +kernel

theorem witness_OversizedLengthNeverAccepted :
    (held [0xC8]).passthrough = false ∧ (held [0xC8]).cursor = 1 ∧ (held [0xC8]).params.maxLen < (0x3F : Byte).toNat ∧
    ∃ t, step { held mini.dropLast with port := [⟨false, 0b001, 0x37, 1⟩] } = .next t ∧
      decide (Event.frameValid mini ∈ t.events) = true :=
  ⟨rfl, rfl, by decide, ends_elim (by decide +kernel)⟩
/-- Valid heads, and lengths on either side of 2. -/
theorem witness_DispatchRunsFrameClass : (held mini).headValid = true ∧ (held big).headValid = true ∧
    (held (shortChannels.bytes ++ mini)).headValid = true ∧ 2 ≤ (held [0xC8, 0x02]).headLen ∧
    (held [0xC8, 0x01, 0x16]).headLen < 2 := by decide +kernel
theorem witness_FrameChannelsEffect : 22 ≤ scenFrame.payload.length := by decide
/-- A foreign address and an unknown type; and a local channel-data frame, which the hypothesis rules out. -/
theorem witness_IgnoredFramesAreConsumed :
    (let s := held other
     s.headValid = true ∧ s.cursor ≤ s.params.cap ∧ s.readByte 0 ≠ s.params.localAddr) ∧
    (let s := held big
     s.headValid = true ∧ s.cursor ≤ s.params.cap ∧ s.readByte 0 = s.params.localAddr ∧ s.readByte 2 ≠ s.params.typeChannels ∧
      s.readByte 2 ≠ s.params.typeLinkStats ∧ s.readByte 2 ≠ s.params.typeGps) ∧
    (held scen).readByte 2 = (held scen).params.typeChannels := by decide +kernel
theorem witness_ChDecodeWritesChannels : 0x18 ≤ (held ramp).headLen ∧ (held shortChannels.bytes).headLen < 0x18 := by
  decide +kernel
/-- The channels at both ends, the bits at both ends. -/
theorem witness_ChannelBitsUnpacked : 22 ≤ scenFrame.payload.length ∧ 0 < 16 ∧ 15 < 16 ∧ 0 < 11 ∧ 10 < 11 := by decide
theorem witness_RescaleExactAndMonotone : ((172 : Nat) : Int) = Params.default.chInMin ∧
    ((1811 : Nat) : Int) = Params.default.chInMax ∧ Params.default.chInMin < Params.default.chInMax ∧
    Params.default.chOutMin ≤ Params.default.chOutMax ∧ 0 ≤ 2047 := by decide
theorem witness_BigEndianFieldAssembly : 0 + 4 ≤ gpsPayload.length ∧ 11 + 4 ≤ gpsPayload.length := by decide
theorem witness_LinkTouchEffect : (held []).linkUp = false ∧ (linked (held []) 7).linkUp = true := by decide
theorem witness_LinkCheckEffect :
    (let s := linked (held []) 5000
     s.linkUp = true ∧ s.params.failsafeMs < (6001 - s.lastChannelFrameTime).toNat ∧
      (6000 - s.lastChannelFrameTime).toNat ≤ s.params.failsafeMs) ∧ (held []).linkUp = false ∧
    ∃ t, exec (.rxByte 0xC8 7) (linked (held []) 5000) = .next t ∧ (linked (held []) 5000).linkUp = true :=
  ⟨by decide, rfl, _, rfl, rfl⟩
theorem witness_LinkEventsAlternate : (∀ i ∈ [Instr.poll 5, .nop], commandCode i = true) ∧ State.reset.linkUp = false ∧
    runCommands [.poll 5, .nop] State.reset = some (State.reset, []) := ⟨by decide, rfl, rfl⟩
/-- A heartbeat frame's last byte, and the POLL that takes the link down. -/
theorem witness_LinkChangesOnlyByItsRules :
    (decodePort [(⟨false, 0b001, 0x5F, 7⟩ : Beat)] = .ok (.rxByte 0x5F 7, []) ∧
      ∃ t, step { held shortChannels.bytes.dropLast with port := [⟨false, 0b001, 0x5F, 7⟩] } = .next t ∧
        (!(held shortChannels.bytes.dropLast).linkUp && t.linkUp) = true) ∧
    decodePort [(⟨false, 0b010, 0, 1001⟩ : Beat)] = .ok (.poll 1001, []) ∧
      ∃ t, step { linked (held []) 0 with port := [⟨false, 0b010, 0, 1001⟩] } = .next t ∧
        ((linked (held []) 0).linkUp && !t.linkUp) = true :=
  ⟨⟨rfl, ends_elim (by decide +kernel)⟩, rfl, ends_elim (by decide +kernel)⟩
theorem witness_RxByteBypassesInPassthrough : ({ held [0xC8] with passthrough := true } : State).passthrough = true := rfl
theorem witness_RxByteFramedEffect : (held (ascending 63)).passthrough = false ∧
    (held (ascending 63)).cursor < (held (ascending 63)).params.cap := by decide +kernel
/-- One state and byte for each clause, the lengths at the ends of their ranges. -/
theorem witness_RxByteStateTable :
    (held []).Quiescent ∧ (held []).passthrough = false ∧ (held []).reassemblerState = .empty ∧
    (held [0xC8]).Quiescent ∧ (held [0xC8]).reassemblerState = .accumulating ∧
    (3 ≤ (0x3E : Byte).toNat ∧ (0x3E : Byte).toNat ≤ (held [0xC8]).params.maxLen) ∧
    ((0x02 : Byte).toNat < 3 ∧ (held [0xC8]).params.maxLen < (0x3F : Byte).toNat) ∧
    (let s := held (big.take 62)
     s.Quiescent ∧ s.reassemblerState = .lengthKnown ∧ s.cursor + 1 < s.headLen + 2) ∧
    (let s := held mini.dropLast
     s.Quiescent ∧ s.reassemblerState = .lengthKnown ∧ s.cursor + 1 = s.headLen + 2 ∧
      0x37 = crc8 (s.memRead 2 (s.headLen - 1)) ∧ 0x36 ≠ crc8 (s.memRead 2 (s.headLen - 1))) := by decide +kernel
theorem witness_PollDrainsThenChecksLink : (held big).cursor ≤ (held big).params.cap ∧ (held big).linkUp = false := by
  decide +kernel
theorem witness_DrainRightAfterByteDoesNothing : ∃ t, exec (.rxByte 0xC8 500) (held []) = .next t := ⟨_, rfl⟩
/-- The largest payload that is not refused. -/
theorem witness_QueueFrameWritesFrame : (linked (held []) 0).linkUp = true ∧ (linked (held []) 0).passthrough = false ∧
    (ascending 60).length ≤ (linked (held []) 0).params.maxPayload := by decide +kernel
theorem witness_QueueFrameSilentNoOp : (held []).linkUp = false ∧
    ({ held [] with passthrough := true } : State).passthrough = true ∧
    (linked (held []) 0).params.maxPayload < (ascending 61).length ∧
    (let s := linked (held []) 0
     ¬(s.linkUp = false ∨ s.passthrough = true ∨ s.params.maxPayload < (ascending 60).length)) := by decide +kernel
theorem witness_EncoderInertInPassthrough :
    exec (.setPassthrough true none) State.reset = .next { State.reset with passthrough := true, events := [.txFlush] } ∧
    (∀ i ∈ [Instr.nop, .poll 5], commandCode i = true ∧ ∀ v sp, i ≠ .setPassthrough v sp) ∧
    runCommands [.nop, .poll 5] { State.reset with passthrough := true, events := [.txFlush] } =
      some ({ State.reset with passthrough := true }, []) :=
  ⟨rfl, by simp [commandCode], rfl⟩
theorem witness_ReservedCodesRefused (op : BitVec 3) (h : op = 0b101 ∨ op = 0b110 ∨ op = 0b111) :
    ({ held [] with port := [⟨false, op, 0, 0⟩, idleBeat] } : State).port = ⟨false, op, 0, 0⟩ :: [idleBeat] ∧
      (⟨false, op, 0, 0⟩ : Beat).rst = false ∧ (op = 0b101 ∨ op = 0b110 ∨ op = 0b111) := ⟨rfl, rfl, h⟩
/-- A state with a partial frame in it. -/
theorem witness_StepKeepsInvariant : (held mini.dropLast).Inv ∧
    ∃ t, step { held mini.dropLast with port := [⟨false, 0b001, 0x37, 1⟩] } = .next t ∧ decide (t.cursor = 0) = true :=
  ⟨by decide +kernel, ends_elim (by decide +kernel)⟩
theorem witness_InvariantBoundsCursor : (held big.dropLast).Inv := by decide +kernel
theorem witness_CommandsAlwaysComplete : (held big.dropLast).Inv ∧ commandCode (.rxByte 0x0E 1) = true := by decide +kernel
theorem witness_BytesConserved : (∀ i ∈ feed (mini ++ mini) 1 ++ [.poll 200], commandCode i = true) ∧
    (held [0x11, 0x0A]).Inv := by decide +kernel
theorem witness_ReportedFramesAreValid :
    ∃ t, step { held mini.dropLast with port := [⟨false, 0b001, 0x37, 1⟩] } = .next t ∧
      decide (Event.frameValid mini ∈ t.events) = true := ends_elim (by decide +kernel)
theorem witness_FramingCorrect : State.reset.passthrough = false ∧ State.reset.cursor = 0 ∧
    decodeFrame State.reset.params 1 big = .ok (.frameUnknownType ⟨0xC8, 0x3E, 0x7F, ascending 60, 0x0E⟩) ∧
    decodeFrame State.reset.params 1 scen = .ok (.frameChannels scenFrame 1) := by decide +kernel
theorem witness_EncoderRoundTrip :
    (∃ t, exec (.queueFrame 0xC8 0x7F [0x55]) (linked (held []) 0) = .next t ∧
      decide (t.events = (linked (held []) 0).events ++ [.txWrite mini]) = true) ∧
    1 ≤ [0x55].length ∧ State.reset.passthrough = false ∧ State.reset.cursor = 0 ∧
    State.reset.params = (linked (held []) 0).params := ⟨ends_elim (by decide +kernel), by decide, rfl, rfl, rfl⟩
/-- Steps that change the mode, the byte stamp and the channels. -/
theorem witness_StateWritersAreListed :
    (decodePort [(⟨false, 0b011, 1, 0⟩ : Beat)] = .ok (.setPassthrough true none, []) ∧
      ∃ t, step { State.reset with port := [⟨false, 0b011, 1, 0⟩] } = .next t ∧ t.passthrough ≠ State.reset.passthrough) ∧
    (decodePort [(⟨false, 0b001, 1, 9⟩ : Beat)] = .ok (.rxByte 1 9, []) ∧
      ∃ t, step { State.reset with port := [⟨false, 0b001, 1, 9⟩] } = .next t ∧ t.lastByteTime ≠ State.reset.lastByteTime) :=
  ⟨⟨rfl, _, rfl, by decide⟩, rfl, _, rfl, by decide⟩
theorem witness_StateWritersAreListed_channels :
    ends (step { held scen.dropLast with port := [⟨false, 0b001, 0xEF, 9⟩] }) (fun t => t.channels != State.reset.channels) ∧
    decodes (decodePort [⟨false, 0b001, 0xEF, 9⟩]) (.rxByte 0xEF 9, []) := by decide +kernel

end Sys2Proof.Machine.Tests
end

/-! The left shift of R53, one ascending store at a time, read location by location; settles O19. -/

namespace Sys2Proof.Machine

/-! ### One store, and an ascending run of them -/

/-- A store reads back at its own address and changes no other: APPEND's rule with the cursor placed at the address. -/
theorem State.readByte_store (s : State) (i : Nat) (b : Byte) (a : Nat) :
    State.readByte { s with buf := Memory.write s.buf i b } a = if a = i then b else s.readByte a :=
  State.readByte_pushByte { s with cursor := i } b a

/-- The moves fill `i .. i+n-1` from `k` locations above. Each source is read before it is overwritten: the store at `i`
lies below every source `a + k` that a later move reads, since `i < a` and `1 ≤ k`. -/
theorem readByte_moveDown {k : Nat} (hk : 1 ≤ k) (n i : Nat) (s : State) (a : Nat) :
    (moveDown k n i s).readByte a = if i ≤ a ∧ a < i + n then s.readByte (a + k) else s.readByte a := by
  induction n generalizing i s with
  | zero => rw [if_neg (by omega)]; rfl
  | succ n ih =>
    rw [moveDown, ih, State.readByte_store, State.readByte_store]
    rcases Nat.lt_trichotomy a i with h | rfl | h
    · rw [if_neg (by omega), if_neg (by omega), if_neg (by omega)]
    · rw [if_neg (by omega), if_pos rfl, if_pos (by omega)]
    · have hsource : a + k ≠ i := by omega
      have hrange : (i + 1 ≤ a ∧ a < i + 1 + n) ↔ (i ≤ a ∧ a < i + (n + 1)) := by omega
      simp only [hrange, if_neg hsource, if_neg (Nat.ne_of_gt h)]

/-! ### The shift by moves -/

@[simp] theorem shiftByMoves_cursor (k : Nat) (s : State) : (shiftByMoves k s).cursor = s.cursor - k := rfl

theorem readByte_shiftByMoves {k : Nat} (hk : 1 ≤ k) (s : State) (a : Nat) :
    (shiftByMoves k s).readByte a = if a < s.cursor - k then s.readByte (a + k) else s.readByte a := by
  have h : (shiftByMoves k s).readByte a = (moveDown k (s.cursor - k) 0 s).readByte a := State.readByte_congr rfl a
  simpa using h.trans (readByte_moveDown hk _ 0 s a)

theorem bytes_shiftByMoves {k : Nat} (hk : 1 ≤ k) (s : State) : (shiftByMoves k s).bytes = s.bytes.drop k := by
  apply List.ext_getElem?
  intro i
  rw [State.bytes_getElem?, List.getElem?_drop, State.bytes_getElem?, shiftByMoves_cursor, Nat.add_comm k i]
  by_cases h : i < s.cursor - k
  · rw [if_pos h, if_pos (by omega), readByte_shiftByMoves hk, if_pos h]
  · rw [if_neg h, if_neg (by omega)]

/-- A shift by the whole cursor makes no move. -/
theorem shiftByMoves_cursor_buf (s : State) : (shiftByMoves s.cursor s).buf = s.buf := by
  rw [shiftByMoves, Nat.sub_self]; rfl

/-- Settles O19: location by location, the ascending moves leave the suffix that `State.shifted` lists at once. -/
theorem leftShiftIsSuffix : Obligations.LeftShiftIsSuffix := by
  unfold Obligations.LeftShiftIsSuffix
  intro s k hk _
  refine ⟨bytes_shiftByMoves hk s, shiftByMoves_cursor k s, State.bytes_shifted s k, State.shifted_cursor s k, ?_⟩
  rintro rfl
  exact shiftByMoves_cursor_buf s

end Sys2Proof.Machine

/-! Acceptance by the two decoders: the wire decoder takes exactly the valid frames of R74, and the port refuses the three
reserved codes of R81; settles O11 and O50. -/

namespace Sys2Proof.Machine

/-! ### The wire -/

theorem exists_valid_of_validFrame {p : Params} {bs : List Byte} (h : ValidFrame p bs) :
    ∃ f : Frame, f.bytes = bs ∧ f.valid p = true := by
  obtain ⟨f, rfl⟩ := Frame.exists_of_length (Nat.le_of_succ_le h.1)
  exact ⟨f, rfl, (validFrame_bytes p f).1 h⟩

/-- Settles O11: the bytes of a valid frame determine its record, on which R74 is the decoder's own check. -/
theorem wireDecoderAcceptsValidFrames : Obligations.WireDecoderAcceptsValidFrames := by
  unfold Obligations.WireDecoderAcceptsValidFrames
  intro p now bs
  refine ⟨⟨?accepted, ?valid⟩, ?encodes⟩
  case accepted =>
    rintro ⟨i, h⟩
    obtain ⟨f, rfl, hv, -⟩ := decodeFrame_cases h
    exact (validFrame_bytes p f).2 hv
  case valid =>
    intro h
    obtain ⟨f, rfl, hv⟩ := exists_valid_of_validFrame h
    exact ⟨frameInstr p now f, decodeFrame_bytes now hv⟩
  case encodes =>
    intro i h
    obtain ⟨f, rfl, hv, rfl⟩ := decodeFrame_cases h
    exact (frameInstr_wf now hv).symm

/-! ### The reserved codes -/

theorem step_of_decodePort {s : State} {i : Instr} {rest : List Beat} (h : decodePort s.port = .ok (i, rest)) :
    step s = exec i (s.accept rest) := by
  rw [step, h]

/-- Without the reset pin, a beat of any code but QUEUE_FRAME's is a whole command (R78). -/
theorem decodePort_oneBeat {b : Beat} (hr : b.rst = false) (ho : b.op ≠ 4) (rest : List Beat) :
    decodePort (b :: rest) = .ok (decodeOneBeat b, rest) := by
  rw [decodePort, if_neg (by simp [hr]), if_neg ho]

/-- Every state refuses an instruction whose code is reserved, by that code (R81). -/
theorem exec_decodeOneBeat_reserved {b : Beat} (ho : b.op = 0b101 ∨ b.op = 0b110 ∨ b.op = 0b111) (s : State) :
    exec (decodeOneBeat b) s = .refused (.reservedCommandCode b.op) := by
  rcases ho with h | h | h <;> simp only [decodeOneBeat, h] <;> rfl

/-- Settles O50: a reserved code is a whole command of one beat, and its instruction is refused in every state. -/
theorem reservedCodesRefused : Obligations.ReservedCodesRefused := by
  unfold Obligations.ReservedCodesRefused
  intro s b rest hport hrst hop
  have hqueue : b.op ≠ 4 := by rcases hop with h | h | h <;> rw [h] <;> decide
  have hdecode : decodePort s.port = .ok (decodeOneBeat b, rest) := hport ▸ decodePort_oneBeat hrst hqueue rest
  refine ⟨?_, rfl, rfl, rfl⟩
  rw [step_of_decodePort hdecode, exec_decodeOneBeat_reserved hop]

end Sys2Proof.Machine

/-! The checksum register, byte by byte and bit by bit (R100, R101); settles O12. -/

namespace Sys2Proof.Machine

/-! ### The register over a sequence -/

/-- The checksum is the register itself: it starts from 0, and the final XOR value is 0 (R100). -/
theorem crc8_eq_crcFrom (s : List Byte) : crc8 s = crcFrom 0 s := BitVec.xor_zero

@[simp] theorem crcFrom_nil (crc : Byte) : crcFrom crc [] = crc := rfl

@[simp] theorem crcFrom_cons (crc x : Byte) (s : List Byte) : crcFrom crc (x :: s) = crcFrom (crcByte crc x) s := rfl

theorem crcFrom_append (crc : Byte) (a b : List Byte) : crcFrom crc (a ++ b) = crcFrom (crcFrom crc a) b :=
  List.foldl_append

theorem crc8_append (a b : List Byte) : crc8 (a ++ b) = crcFrom (crc8 a) b := by
  rw [crc8_eq_crcFrom, crc8_eq_crcFrom, crcFrom_append]

theorem crcByte_eq_iterate_crcStep (crc x : Byte) : crcByte crc x = crcStep^[8] (crc ^^^ x) := rfl

theorem crc8_append_singleton (s : List Byte) (x : Byte) : crc8 (s ++ [x]) = crcStep^[8] (crc8 s ^^^ x) := by
  rw [crc8_append, crcFrom_cons, crcFrom_nil, crcByte_eq_iterate_crcStep]

/-! ### One bit of the division -/

theorem crcStep_of_bit7 {c : Byte} (h : c.getLsbD 7 = true) : crcStep c = (c <<< 1) ^^^ 0xD5 :=
  if_pos (c.msb_eq_getLsbD_last.trans h)

theorem crcStep_of_not_bit7 {c : Byte} (h : c.getLsbD 7 = false) : crcStep c = c <<< 1 :=
  if_neg (Bool.eq_false_iff.1 (c.msb_eq_getLsbD_last.trans h))

/-! ### Zero bytes -/

/-- A zero register has bit 7 clear, so a step only shifts it. -/
theorem crcStep_zero : crcStep 0 = 0 := crcStep_of_not_bit7 rfl

theorem crcByte_zero_zero : crcByte 0 0 = 0 :=
  (crcByte_eq_iterate_crcStep 0 0).trans (Function.iterate_fixed crcStep_zero 8)

theorem crc8_replicate_zero (n : Nat) : crc8 (List.replicate n 0) = 0 := by
  rw [crc8_eq_crcFrom]
  induction n with
  | zero => rfl
  | succ n ih => rw [List.replicate_succ, crcFrom_cons, crcByte_zero_zero, ih]

/-- Settles O12: the fold's last byte gives the byte rule, the register's top bit the two forms of a step. -/
theorem crc8FollowsItsSteps : Obligations.Crc8FollowsItsSteps := by
  unfold Obligations.Crc8FollowsItsSteps
  refine ⟨crc8_eq_crcFrom [], crc8_append_singleton, fun _ => crcStep_of_bit7, fun _ => crcStep_of_not_bit7,
    crc8_replicate_zero, ?byteExample, ?stepExample⟩
  case byteExample => decide
  case stepExample => decide

end Sys2Proof.Machine

/-! The buffer manager's operations, each with its frame (R110, R116, R119); settles O16, O17 and O26. -/

namespace Sys2Proof.Machine

/-! ### APPEND and SHIFT1 -/

@[simp] theorem State.readByte_emit (s : State) (e : Event) (a : Nat) : (s.emit e).readByte a = s.readByte a :=
  State.readByte_congr rfl a

@[simp] theorem State.bytes_emit (s : State) (e : Event) : (s.emit e).bytes = s.bytes := State.bytes_congr rfl rfl

theorem State.readByte_pushByte_cursor (s : State) (b : Byte) : (s.pushByte b).readByte s.cursor = b :=
  (s.readByte_pushByte b s.cursor).trans (if_pos rfl)

theorem State.readByte_pushByte_other (s : State) (b : Byte) {a : Nat} (h : a ≠ s.cursor) :
    (s.pushByte b).readByte a = s.readByte a :=
  (s.readByte_pushByte b a).trans (if_neg h)

/-- A byte that stays in the buffer moves down by `k` (R53). -/
theorem State.readByte_shifted_valid (s : State) {k a : Nat} (h : a + k < s.cursor) :
    (s.shifted k).readByte a = s.readByte (a + k) :=
  (s.readByte_shifted k a).trans (if_pos h)

/-- Settles O16: a quiescent buffer has room (R35), and the store at the cursor reads back there and nowhere else. -/
theorem appendStoresByte : Obligations.AppendStoresByte := by
  unfold Obligations.AppendStoresByte
  intro s b
  refine ⟨fun ⟨_, _, hq⟩ => State.cursor_lt_cap hq, fun hroom => ?_⟩
  exact ⟨s.pushByte b, appendByte_eq b hroom, s.readByte_pushByte_cursor b,
    fun _ => s.readByte_pushByte_other b, rfl⟩

/-- Settles O17: the event carries the byte read before the shift by one. -/
theorem shift1SurfacesLeadingByte : Obligations.Shift1SurfacesLeadingByte := by
  unfold Obligations.Shift1SurfacesLeadingByte
  intro s hone hcap
  refine ⟨_, discardOne_eq hone hcap, fun i hi => ?_, rfl⟩
  exact (State.readByte_shifted_valid (s.emit _) hi).trans (s.readByte_emit _ _)

/-! ### DRAIN -/

theorem State.not_stale_iff {s : State} {now : Word32} : ¬s.stale now = true ↔
    s.cursor = 0 ∨ elapsed now s.lastByteTime ≤ s.params.packetTimeoutMs := by
  rw [State.stale_iff, Classical.not_and_iff_not_or_not, Nat.pos_iff_ne_zero, not_not, not_lt]

/-- Settles O26: the two cases are the guard and its negation. -/
theorem drainSurfacesStaleBytes : Obligations.DrainSurfacesStaleBytes := by
  unfold Obligations.DrainSurfacesStaleBytes
  intro s now hcap
  refine ⟨fun hpos hold => (drainIfStale_eq now hcap).trans ?stale,
    fun hfresh => (drainIfStale_eq now hcap).trans ?fresh⟩
  case stale => rw [if_pos (State.stale_iff.2 ⟨hpos, hold⟩)]; rfl
  case fresh => rw [if_neg (State.not_stale_iff.2 hfresh)]

end Sys2Proof.Machine

/-! VALIDATE as the recursion of R111, free of the pass count that bounds it; settles O23. -/

namespace Sys2Proof.Machine

/-! ### One pass, then VALIDATE again -/

/-- After a move that leaves no more bytes than the count allows, the remaining passes are a VALIDATE of their own. -/
theorem andThen_validateLoop {now : Word32} {n : Nat} {r : Result} (h : ∀ t, r = .next t → t.cursor ≤ n) :
    r.andThen (validateLoop now n) = r.andThen (validateBuffer now) := by
  cases r with
  | next t => exact validateLoop_count now n t.cursor t (h t rfl) (Nat.le_refl _)
  | fault e => rfl
  | refused e => rfl

/-- The loop that VALIDATE is, with no count: each retry is VALIDATE itself (R111 to R115). -/
theorem validateBuffer_eq (now : Word32) (s : State) :
    validateBuffer now s =
      if s.cursor < 2 then .next s
      else if ¬(3 ≤ s.headLen ∧ s.headLen ≤ s.params.maxLen) then (discardOne s).andThen (validateBuffer now)
      else if s.cursor < s.headLen + 2 then .next s
      else if s.headChecksumOk then
        ((handOff now s.headFrame s).andThen (discardFrame (s.headLen + 2))).andThen (validateBuffer now)
      else (discardOne s).andThen (validateBuffer now) := by
  have hone : ∀ t, discardOne s = .next t → t.cursor ≤ s.cursor := fun t h => by
    obtain ⟨_, _, rfl⟩ := discardOne_cases h
    simp
  have hframe : ∀ t, (handOff now s.headFrame s).andThen (discardFrame (s.headLen + 2)) = .next t →
      t.cursor ≤ s.cursor := fun t h => by
    obtain ⟨u, hu, ht⟩ := Result.andThen_eq_next.1 h
    have := (framePass_cursor hu ht).1
    omega
  calc validateBuffer now s
    _ = validateLoop now (s.cursor + 1) s := validateLoop_count now _ _ s (Nat.le_refl _) (Nat.le_succ _)
    _ = _ := by rw [validateLoop_succ, andThen_validateLoop hone, andThen_validateLoop hframe]

/-! ### The steps that do not exit -/

theorem validateBuffer_badLength (now : Word32) {s : State} (h2 : 2 ≤ s.cursor)
    (hlen : s.headLen < 3 ∨ s.params.maxLen < s.headLen) :
    validateBuffer now s = (discardOne s).andThen (validateBuffer now) := by
  rw [validateBuffer_eq, if_neg (by omega), if_pos (by omega)]

/-- A complete candidate is handed on and discarded, or resynced, as its checksum decides (R114). -/
theorem validateBuffer_complete (now : Word32) {s : State} (h2 : 2 ≤ s.cursor) (h3 : 3 ≤ s.headLen)
    (hmax : s.headLen ≤ s.params.maxLen) (hall : s.headLen + 2 ≤ s.cursor) :
    validateBuffer now s =
      if s.headChecksumOk then
        ((handOff now s.headFrame s).andThen (discardFrame (s.headLen + 2))).andThen (validateBuffer now)
      else (discardOne s).andThen (validateBuffer now) := by
  rw [validateBuffer_eq, if_neg (by omega), if_neg (by omega), if_neg (by omega)]

/-- Settles O23: the two exits are the quiescent forms of R35, and the three retries are the recursion's. -/
theorem validateFollowsItsSteps : Obligations.ValidateFollowsItsSteps := by
  unfold Obligations.ValidateFollowsItsSteps
  intro s now _
  refine ⟨fun hfew => ?fewBytes, fun h2 hlen => ?badLength, fun h2 h3 hmax hall hcrc => ?frame,
    fun h2 h3 hmax hall hcrc => ?badChecksum, fun _ h3 hmax hpart => ?incomplete⟩
  case fewBytes => exact validateBuffer_quiescent now (.inl hfew)
  case badLength => exact validateBuffer_badLength now h2 hlen
  case frame =>
    have hdispatch : exec (.dispatch now) s = handOff now s.headFrame s :=
      execDispatch_eq_handOff now (Nat.le_of_succ_le h3)
    exact hdispatch ▸ (validateBuffer_complete now h2 h3 hmax hall).trans (if_pos (decide_eq_true hcrc))
  case badChecksum =>
    refine (validateBuffer_complete now h2 h3 hmax hall).trans (if_neg ?_)
    simpa [State.headChecksumOk] using hcrc
  case incomplete => exact validateBuffer_quiescent now (.inr ⟨h3, hmax, hpart⟩)

end Sys2Proof.Machine

/-! What a step may report: only RX_BYTE hands frames on, and only valid ones; settles O27. -/

namespace Sys2Proof.Machine

/-! ### Reported frames are valid -/

/-- The frames an RX_BYTE reports come from its VALIDATE (R140, R195). -/
theorem validFrame_of_execRxByte {s t : State} {b : Byte} {now : Word32} {f : List Byte} (he : s.events = [])
    (h : execRxByte b now s = .next t) (hf : .frameValid f ∈ t.events) : ValidFrame s.params f := by
  cases hp : s.passthrough with
  | true =>
    rw [execRxByte_passthrough b now hp] at h
    cases h
    simp [he] at hf
  | false =>
    obtain ⟨u, hu, _, hprog, _⟩ := execRxByte_framed b now hp (execRxByte_room hp h)
    rw [hu] at h
    cases h
    obtain ⟨evs, happ, _, _, hvalid, _⟩ := hprog.events
    have hevs : t.events = evs := by simpa [he] using happ
    exact hvalid f (hevs ▸ hf)

/-- RX_BYTE is the one command of R78 that can report a frame at all. -/
theorem validFrame_of_command {i : Instr} {s t : State} {f : List Byte} (hi : commandCode i = true)
    (he : s.events = []) (h : exec i s = .next t) (hf : .frameValid f ∈ t.events) : ValidFrame s.params f := by
  cases i <;> simp only [commandCode, Bool.false_eq_true] at hi
  case nop =>
    cases h
    simp [he] at hf
  case rxByte b now => exact validFrame_of_execRxByte he h hf
  case poll now =>
    rw [execPoll_cases h, checkLink_eq] at hf
    split at hf <;> simp [he] at hf
  case setPassthrough val speed =>
    cases (execSetPassthrough_eq val speed s).symm.trans h
    simp [he] at hf
  case queueFrame addr type payload =>
    cases (execQueueFrame_eq addr type payload s).symm.trans h
    split at hf <;> simp [he] at hf

/-- A step reports valid frames only (R74, R140): it waits, resets, runs a command, or refuses a reserved code. -/
theorem validFrame_of_step {s t : State} {f : List Byte} (h : step s = .next t) (hf : .frameValid f ∈ t.events) :
    ValidFrame s.params f := by
  rcases step_cases s with ⟨i, rest, hdec, hstep⟩ | hwait
  · rw [hstep] at h
    rcases decodePort_cases hdec with rfl | hcmd | rfl | rfl | rfl
    · cases h
      cases hf
    · exact validFrame_of_command (s := s.accept rest) hcmd rfl h hf
    all_goals cases h
  · rw [hwait] at h
    cases h
    cases hf

/-! ### The oversized length -/

theorem State.headLen_pushByte {s : State} (b : Byte) (h : s.cursor = 1) : (s.pushByte b).headLen = b.toNat := by
  rw [State.headLen, ← h, s.readByte_pushByte_cursor b]

/-- A second byte that exceeds MAX_LEN costs the first byte its place and becomes the leading byte (R113, R125). -/
theorem validateBuffer_pushByte_oversized (now : Word32) {s : State} {b : Byte} (h : s.cursor = 1)
    (hb : s.params.maxLen < b.toNat) :
    validateBuffer now (s.pushByte b) = .next (((s.pushByte b).emit (.rawByte (s.readByte 0))).shifted 1) := by
  have hcursor : (s.pushByte b).cursor = 2 := by rw [State.pushByte_cursor, h]
  have hcap : (s.pushByte b).cursor ≤ (s.pushByte b).params.cap := by
    rw [hcursor, Params.cap]
    exact Nat.le_add_left 2 _
  have hlen : (s.pushByte b).params.maxLen < (s.pushByte b).headLen := by rw [State.headLen_pushByte b h]; exact hb
  rw [validateBuffer_badLength now hcursor.ge (.inr hlen), discardOne_eq (by omega) hcap, Result.andThen_next,
    s.readByte_pushByte_other b (by omega)]
  exact validateBuffer_quiescent now (.inl (by simp [h]))

/-- Settles O27: the oversized byte is resynced past at once, and what a step reports is valid, so within MAX_LEN. -/
theorem oversizedLengthNeverAccepted : Obligations.OversizedLengthNeverAccepted := by
  unfold Obligations.OversizedLengthNeverAccepted
  refine ⟨fun s b now hp hone hb => ?rejected, fun s t f h hf => ?neverReported⟩
  case rejected =>
    have hroom : s.cursor < s.params.cap := by rw [hone, Params.cap]; omega
    obtain ⟨t, hexec, hvalidate, _⟩ := execRxByte_framed b now hp hroom
    rw [validateBuffer_pushByte_oversized now (s := s.stampByte now) hone hb] at hvalidate
    cases hvalidate
    have hold : (s.stampByte now).bytes.length = 1 := by rw [State.bytes_length, State.stampByte_cursor, hone]
    refine ⟨_, hexec, ?_, rfl⟩
    rw [State.bytes_shifted, State.bytes_emit, State.bytes_pushByte, List.drop_left' hold]
  case neverReported =>
    obtain ⟨_, _, hmax, _⟩ := validFrame_of_step h hf
    exact hmax

end Sys2Proof.Machine

/-! Frames that no handler takes: reported, consumed, and otherwise without effect (R141, R149); settles O31. -/

namespace Sys2Proof.Machine

/-! ### The two ignored classes -/

/-- A foreign address, or a type tag that is none of the handled ones, puts a frame in an ignored class. -/
theorem classify_of_ignored {p : Params} {f : Frame}
    (h : f.destinationAddress ≠ p.localAddr ∨
      (f.typeTag ≠ p.typeChannels ∧ f.typeTag ≠ p.typeLinkStats ∧ f.typeTag ≠ p.typeGps)) :
    f.classify p = .notLocal ∨ f.classify p = .unknownType := by
  by_cases haddr : f.destinationAddress = p.localAddr
  · obtain ⟨hchannels, hstats, hgps⟩ := h.resolve_left (not_not_intro haddr)
    right
    rw [Frame.classify, if_neg (not_not_intro haddr), if_neg hchannels, if_neg hstats, if_neg hgps]
  · exact .inl (if_pos haddr)

/-- The hand-off of a frame of an ignored class reports it and does nothing else. -/
theorem handOff_of_ignored {f : Frame} {s : State} (now : Word32)
    (h : f.classify s.params = .notLocal ∨ f.classify s.params = .unknownType) :
    handOff now f s = .next (s.emit (.frameValid f.bytes)) := by
  rw [handOff_eq]
  rcases h with h | h <;> rw [h]

/-! ### Report, then consume -/

/-- DISPATCH of an ignored frame at the head of the buffer reports the buffer's leading `len + 2` bytes. -/
theorem exec_dispatch_of_ignored {s : State} (now : Word32) (h2 : 2 ≤ s.headLen) (hall : s.headLen + 2 ≤ s.cursor)
    (h : s.headFrame.classify s.params = .notLocal ∨ s.headFrame.classify s.params = .unknownType) :
    exec (.dispatch now) s = .next (s.emit (.frameValid (s.bytes.take (s.headLen + 2)))) :=
  (execDispatch_eq_handOff now h2).trans <| by
    rw [handOff_of_ignored now h, State.headFrame_bytes h2, State.memRead_eq_bytes s hall]

/-- Settles O31: the hand-off writes an event only, so SHIFTN then finds the buffer that held the frame. -/
theorem ignoredFramesAreConsumed : Obligations.IgnoredFramesAreConsumed := by
  unfold Obligations.IgnoredFramesAreConsumed
  refine ⟨fun _ _ => ⟨rfl, rfl⟩, fun s now hvalid hcap hignored => ?_⟩
  obtain ⟨_, ⟨h3, _⟩, hall, _⟩ := s.headValid_iff.1 hvalid
  have hclass := classify_of_ignored (f := s.headFrame) hignored
  rw [exec_dispatch_of_ignored now (Nat.le_of_succ_le h3) hall hclass, Result.andThen_next]
  refine ⟨_, discardFrame_eq (Nat.le_add_left 1 _) hall hcap, ?_, rfl⟩
  rw [State.bytes_shifted, State.bytes_emit]

end Sys2Proof.Machine

/-! The down edge of the link: LINK_CHECK's guard, and no RX_BYTE that lowers the flag (R162); settles O37. -/

namespace Sys2Proof.Machine

/-! ### LINK_CHECK on either side of its guard -/

theorem checkLink_of_expired {s : State} {now : Word32} (h : s.linkExpired now = true) :
    checkLink now s = { s with linkUp := false, events := s.events ++ [.linkDown] } := if_pos h

theorem checkLink_of_not_expired {s : State} {now : Word32} (h : ¬s.linkExpired now = true) :
    checkLink now s = s := if_neg h

theorem State.not_linkExpired_iff {s : State} {now : Word32} : ¬s.linkExpired now = true ↔
    s.linkUp = false ∨ elapsed now s.lastChannelFrameTime ≤ s.params.failsafeMs := by
  rw [State.linkExpired_iff, not_and_or, Bool.not_eq_true, not_lt]

/-! ### RX_BYTE keeps the link up -/

/-- Passthrough leaves the flag alone, and in framed mode VALIDATE can only raise it (R161, R187). -/
theorem execRxByte_keeps_linkUp {s t : State} {b : Byte} {now : Word32} (h : execRxByte b now s = .next t)
    (hup : s.linkUp = true) : t.linkUp = true := by
  cases hp : s.passthrough with
  | true =>
    rw [execRxByte_passthrough b now hp] at h
    cases h
    exact hup
  | false =>
    obtain ⟨u, hu, _, hprog, _⟩ := execRxByte_framed b now hp (execRxByte_room hp h)
    rw [hu] at h
    cases h
    exact hprog.link_mono hup

/-- Settles O37: the two sides of the guard; POLL is its two operations by definition; VALIDATE never lowers the flag. -/
theorem linkCheckEffect : Obligations.LinkCheckEffect := by
  unfold Obligations.LinkCheckEffect
  refine fun s now => ⟨fun hup hlate => ?down, fun hguard => ?quiet, rfl, fun b t h hup => ?rxByte⟩
  case down => exact congrArg _ (checkLink_of_expired (State.linkExpired_iff.2 ⟨hup, hlate⟩))
  case quiet => exact congrArg _ (checkLink_of_not_expired (State.not_linkExpired_iff.2 hguard))
  case rxByte => exact execRxByte_keeps_linkUp h hup

end Sys2Proof.Machine

/-! The encoder: what refuses a QUEUE_FRAME, and the bytes of one that is sent (R176, R177, R178); settles O47 and O48. -/

namespace Sys2Proof.Machine

/-! ### QUEUE_FRAME on either side of its guard -/

theorem State.txRefused_iff {s : State} {n : Nat} :
    s.txRefused n = true ↔ s.linkUp = false ∨ s.passthrough = true ∨ s.params.maxPayload < n := by
  simp [State.txRefused, or_assoc]

theorem exec_queueFrame_of_refused (addr type : Byte) {payload : List Byte} {s : State}
    (h : s.txRefused payload.length = true) : exec (.queueFrame addr type payload) s = .next s :=
  (execQueueFrame_eq addr type payload s).trans (congrArg _ (if_pos h))

theorem exec_queueFrame_of_sent (addr type : Byte) {payload : List Byte} {s : State}
    (h : ¬s.txRefused payload.length = true) :
    exec (.queueFrame addr type payload) s = .next (s.emit (.txWrite (Frame.build addr type payload).bytes)) :=
  (execQueueFrame_eq addr type payload s).trans (congrArg _ (if_neg h))

/-! ### The constructed frame -/

/-- Within MAX_PAYLOAD the length byte does not wrap, since MAX_PAYLOAD + 2 ≤ MAX_LEN ≤ 253 (R8, R177). -/
theorem declaredLength_build (p : Params) (addr type : Byte) {payload : List Byte}
    (h : payload.length ≤ p.maxPayload) :
    (Frame.build addr type payload).declaredLength.toNat = payload.length + 2 := by
  have hpayload := p.maxPayload_le
  have hlen := p.maxLen_le
  exact (BitVec.toNat_ofNat _ 8).trans (Nat.mod_eq_of_lt (by omega))

/-- Settles O47: the guard is open, and the one write carries the bytes of the built frame in wire order. -/
theorem queueFrameWritesFrame : Obligations.QueueFrameWritesFrame := by
  unfold Obligations.QueueFrameWritesFrame
  intro s addr type payload hlink hmode hfits
  have hsent : ¬s.txRefused payload.length = true := by
    simpa [State.txRefused_iff, hlink, hmode] using hfits
  exact ⟨(Frame.build addr type payload).declaredLength, declaredLength_build s.params addr type hfits,
    exec_queueFrame_of_sent addr type hsent, (Frame.build addr type payload).bytes_length⟩

/-- Settles O48: the three conditions are the guard's own, and beyond it stands one write. -/
theorem queueFrameSilentNoOp : Obligations.QueueFrameSilentNoOp := by
  unfold Obligations.QueueFrameSilentNoOp
  intro s addr type payload
  rw [← State.txRefused_iff]
  exact ⟨exec_queueFrame_of_refused addr type, fun hsent => ⟨_, exec_queueFrame_of_sent addr type hsent⟩⟩

end Sys2Proof.Machine

/-! The passthrough mode: RX_BYTE around the reassembler, and the mode that only SET_PASSTHROUGH ends, with the encoder
inert for as long (R187, R189); settles O41 and O49. -/

namespace Sys2Proof.Machine

/-- Settles O41: the mode test comes before APPEND, so the byte is stamped and reported and the buffer never reached. -/
theorem rxByteBypassesInPassthrough : Obligations.RxByteBypassesInPassthrough := by
  unfold Obligations.RxByteBypassesInPassthrough
  exact fun s b now hmode => execRxByte_passthrough b now hmode

/-! ### Commands that keep the mode -/

theorem Progress.passthrough {now : Word32} {s t : State} (h : Progress now s t) : t.passthrough = s.passthrough :=
  (congrArg State.passthrough h.rest :)

theorem execRxByte_keeps_passthrough {s t : State} {b : Byte} {now : Word32} (h : execRxByte b now s = .next t) :
    t.passthrough = s.passthrough := by
  cases hp : s.passthrough with
  | true =>
    rw [execRxByte_passthrough b now hp] at h
    cases h
    exact hp
  | false =>
    obtain ⟨u, hu, _, hprog, _⟩ := execRxByte_framed b now hp (execRxByte_room hp h)
    rw [hu] at h
    cases h
    exact hprog.passthrough.trans hp

/-- Neither the drain nor the link check of a POLL writes the mode (R190, R196). -/
theorem execPoll_keeps_passthrough {s t : State} {now : Word32} (h : execPoll now s = .next t) :
    t.passthrough = s.passthrough := by
  rw [execPoll_cases h, checkLink_eq]
  split <;> rfl

/-- SET_PASSTHROUGH is the one command of R78 that writes the mode (R26). -/
theorem command_keeps_passthrough {i : Instr} {s t : State} (hi : commandCode i = true)
    (hset : ∀ v sp, i ≠ .setPassthrough v sp) (h : exec i s = .next t) : t.passthrough = s.passthrough := by
  cases i <;> simp only [commandCode, Bool.false_eq_true] at hi
  case nop =>
    cases h
    rfl
  case rxByte b now => exact execRxByte_keeps_passthrough h
  case poll now => exact execPoll_keeps_passthrough h
  case setPassthrough v sp => exact absurd rfl (hset v sp)
  case queueFrame addr type payload =>
    cases (execQueueFrame_eq addr type payload s).symm.trans h
    split <;> rfl

/-- A run without SET_PASSTHROUGH ends in the mode it began in. -/
theorem runCommands_keeps_passthrough {cmds : List Instr} {s u : State} {evs : List Event}
    (hcmds : ∀ i ∈ cmds, commandCode i = true ∧ ∀ v sp, i ≠ .setPassthrough v sp)
    (h : runCommands cmds s = some (u, evs)) : u.passthrough = s.passthrough := by
  induction cmds generalizing s evs with
  | nil =>
    cases h
    rfl
  | cons i is ih =>
    obtain ⟨t, e, hi, his, _⟩ := runCommands_cons h
    obtain ⟨⟨hcode, hset⟩, htail⟩ := List.forall_mem_cons.1 hcmds
    calc u.passthrough
      _ = t.passthrough := ih htail his
      _ = ({ s with events := [] } : State).passthrough := command_keeps_passthrough hcode hset hi
      _ = s.passthrough := rfl

/-- Settles O49: the run keeps the mode that SET_PASSTHROUGH(1) set, and the mode alone refuses the frame (R176). -/
theorem encoderInertInPassthrough : Obligations.EncoderInertInPassthrough := by
  unfold Obligations.EncoderInertInPassthrough
  intro s t u speed cmds evs addr type payload hset hcmds hrun
  have hstart : t.passthrough = true := by
    cases (execSetPassthrough_eq true speed s).symm.trans hset
    rfl
  have hmode : u.passthrough = true := (runCommands_keeps_passthrough hcmds hrun).trans hstart
  exact exec_queueFrame_of_refused addr type (State.txRefused_iff.2 (.inr (.inl hmode)))

end Sys2Proof.Machine

/-! The service cycle: DRAIN and LINK_CHECK each leave their own guard closed, so a second POLL at the same time finds
nothing to do (R196); settles O44. -/

namespace Sys2Proof.Machine

/-! ### What each half of POLL leaves -/

/-- DRAIN surfaces all the buffered bytes or none, and leaves a buffer that is not stale (R119). -/
theorem drainIfStale_closes_guard {s : State} (now : Word32) (hcap : s.cursor ≤ s.params.cap) :
    ∃ u raws, drainIfStale now s = .next u ∧ (raws = [] ∨ raws = s.bytes.map .rawByte) ∧
      u = { s with buf := u.buf, cursor := u.cursor, events := s.events ++ raws } ∧ ¬u.stale now = true := by
  by_cases hstale : s.stale now = true
  · exact ⟨_, _, (drainIfStale_eq now hcap).trans (congrArg _ (if_pos hstale)), .inr rfl, rfl,
      State.not_stale_iff.2 (.inl rfl)⟩
  · exact ⟨s, [], (drainIfStale_eq now hcap).trans (congrArg _ (if_neg hstale)), .inl rfl, by simp, hstale⟩

/-- LINK_CHECK reports at most the one edge, and leaves a link that is down or not expired (R162). -/
theorem checkLink_closes_guard (now : Word32) (u : State) :
    ∃ downs, (downs = [] ∨ downs = [.linkDown]) ∧
      checkLink now u = { u with linkUp := (checkLink now u).linkUp, events := u.events ++ downs } ∧
      ¬(checkLink now u).linkExpired now = true := by
  by_cases hexp : u.linkExpired now = true
  · rw [checkLink_of_expired hexp]
    exact ⟨_, .inr rfl, rfl, State.not_linkExpired_iff.2 (.inl rfl)⟩
  · rw [checkLink_of_not_expired hexp]
    exact ⟨[], .inl rfl, by simp, hexp⟩

/-- LINK_CHECK never raises the flag (R161, R162). -/
theorem checkLink_keeps_link_down {u : State} (now : Word32) (hdown : u.linkUp = false) :
    (checkLink now u).linkUp = false :=
  (congrArg State.linkUp (checkLink_of_not_expired (State.not_linkExpired_iff.2 (.inl hdown)))).trans hdown

/-- LINK_CHECK writes nothing that DRAIN's guard reads. -/
theorem stale_checkLink (now : Word32) (u : State) : (checkLink now u).stale now = u.stale now := by
  rw [checkLink_eq]
  rfl

/-! ### POLL -/

/-- With both guards closed POLL does nothing. -/
theorem exec_poll_of_guards_closed {t : State} {now : Word32} (hfresh : ¬t.stale now = true)
    (hlink : ¬t.linkExpired now = true) : exec (.poll now) t = .next t :=
  calc exec (.poll now) t
    _ = (drainIfStale now t).andThen fun u => .next (checkLink now u) := rfl
    _ = .next (checkLink now t) := by rw [drainIfStale, if_neg hfresh, Result.andThen_next]
    _ = .next t := congrArg _ (checkLink_of_not_expired hlink)

/-- Settles O44: the two halves in turn; the link check does not reopen DRAIN's guard, so both are closed at the end. -/
theorem pollDrainsThenChecksLink : Obligations.PollDrainsThenChecksLink := by
  unfold Obligations.PollDrainsThenChecksLink
  intro s now hcap
  obtain ⟨u, raws, hdrain, hraws, hu, hfresh⟩ := drainIfStale_closes_guard now hcap
  obtain ⟨downs, hdowns, ht, hlink⟩ := checkLink_closes_guard now u
  have hpoll : (drainIfStale now s).andThen (fun v => .next (checkLink now v)) = .next (checkLink now u) := by
    rw [hdrain, Result.andThen_next]
  refine ⟨checkLink now u, hpoll, hpoll, fun hdown => ?link, ⟨raws, downs, ?events, hraws, hdowns⟩, ?frame, ?again⟩
  case link => exact checkLink_keeps_link_down now ((congrArg State.linkUp hu).trans hdown)
  case events | frame => rw [ht, hu]
  case again => exact exec_poll_of_guards_closed (by rwa [stale_checkLink]) hlink

end Sys2Proof.Machine

/-! The command port: a QUEUE_FRAME is decoded from its three header beats and then its payload, whatever stands among
them or cuts them short, and every other command from one beat; settles O8, O5, O3, O6, O4 and O7. -/

namespace Sys2Proof

/-! ### QUEUE_FRAME: header, then payload -/

/-- Once the header is collected, the payload's collection decides (D2). -/
theorem decodeQueueFrame_of_header {bs rest : List Beat} {addr type n : Byte}
    (h : takeQueueBytes 3 bs = .ok ([addr, type, n], rest)) :
    decodeQueueFrame bs = (takeQueueBytes n.toNat rest).map fun r => (.queueFrame addr type r.1, r.2) := by
  simp only [decodeQueueFrame, h]
  cases takeQueueBytes n.toNat rest <;> rfl

theorem decodeQueueFrame_of_header_error {bs : List Beat} {e : DecodeError} (h : takeQueueBytes 3 bs = .error e) :
    decodeQueueFrame bs = .error e := by
  rw [decodeQueueFrame, h]

/-- The three header beats alone are collected whole. -/
theorem takeQueueBytes_header (addr type n : Byte) (rest : List Beat) :
    takeQueueBytes 3 ([addr, type, n].map queueBeat ++ rest) = .ok ([addr, type, n], rest) :=
  takeQueueBytes_map [addr, type, n] rest

/-- The count byte gives the payload's size back, up to 255 (R175). -/
theorem toNat_payloadCount {payload : List Byte} (h : payload.length ≤ 255) :
    (BitVec.ofNat 8 payload.length).toNat = payload.length :=
  (BitVec.toNat_ofNat _ 8).trans (Nat.mod_eq_of_lt (Nat.lt_succ_of_le h))

theorem queueFrameBeats_eq (addr type : Byte) (payload : List Byte) :
    queueFrameBeats addr type payload =
      [addr, type, BitVec.ofNat 8 payload.length].map queueBeat ++ payload.map queueBeat := rfl

/-- All the beats of a QUEUE_FRAME are collected whole, whatever follows them. -/
theorem decodeQueueFrame_beats (addr type : Byte) {payload : List Byte} (h : payload.length ≤ 255) (rest : List Beat) :
    decodeQueueFrame (queueFrameBeats addr type payload ++ rest) = .ok (.queueFrame addr type payload, rest) := by
  rw [queueFrameBeats_eq, List.append_assoc, decodeQueueFrame_of_header (takeQueueBytes_header ..),
    toNat_payloadCount h, takeQueueBytes_map]
  rfl

/-! ### The head of the port -/

theorem decodePort_reset {b : Beat} (h : b.rst = true) (rest : List Beat) :
    decodePort (b :: rest) = .ok (.reset, rest) := by
  rw [decodePort, if_pos h]

/-- A QUEUE_FRAME beat at the head: the port answers as the QUEUE_FRAME decoder does, unless that was abandoned. -/
theorem decodePort_queueBeat {x : Byte} {bs : List Beat} {r : Except DecodeError (Instr × List Beat)}
    (h : decodeQueueFrame (queueBeat x :: bs) = r) (hr : ∀ rest, r ≠ .error (.abandonedByReset rest)) :
    decodePort (queueBeat x :: bs) = r := by
  rw [decodePort, if_neg (by simp), if_pos (queueBeat_op x), h]
  split
  · next rest => exact absurd rfl (hr rest)
  · rfl

theorem decodePort_abandoned {x : Byte} {bs rest : List Beat}
    (h : decodeQueueFrame (queueBeat x :: bs) = .error (.abandonedByReset rest)) :
    decodePort (queueBeat x :: bs) = .ok (.reset, rest) := by
  rw [decodePort, if_neg (by simp), if_pos (queueBeat_op x), h]

/-! ### Encoding and decoding again -/

/-- The two low bits of SET_PASSTHROUGH's data are the mode and the mark of a speed (D2). -/
theorem passthroughData_bits (val : Bool) (speed : Option Word32) :
    (passthroughData val speed).getLsbD 0 = val ∧ (passthroughData val speed).getLsbD 1 = speed.isSome := by
  cases val <;> cases speed <;> simp [passthroughData]

theorem decodeOneBeat_setPassthrough (val : Bool) (speed : Option Word32) :
    decodeOneBeat (.cmd 3 (passthroughData val speed) (speed.getD 0)) = .setPassthrough val speed := by
  obtain ⟨hmode, hspeed⟩ := passthroughData_bits val speed
  have hcode : decodeOneBeat (.cmd 3 (passthroughData val speed) (speed.getD 0)) =
      .setPassthrough ((passthroughData val speed).getLsbD 0)
        (if (passthroughData val speed).getLsbD 1 then some (speed.getD 0) else none) := rfl
  rw [hcode, hmode, hspeed]
  cases speed <;> rfl

/-- Settles O8: a command of one beat by its code; a QUEUE_FRAME by collecting its header and its payload. -/
theorem portEncodingRoundTrip : Obligations.PortEncodingRoundTrip := by
  unfold Obligations.PortEncodingRoundTrip
  intro p i bs rest hwf henc
  cases i <;> cases henc
  case reset => exact decodePort_reset rfl rest
  case setPassthrough val speed =>
    rw [← decodeOneBeat_setPassthrough val speed]
    exact Machine.decodePort_oneBeat rfl (by decide : (3 : BitVec 3) ≠ 4) rest
  case queueFrame addr type payload =>
    exact decodePort_queueBeat (decodeQueueFrame_beats addr type (of_decide_eq_true hwf) rest) (by simp)
  case nop | rxByte | poll | reserved5 | reserved6 | reserved7 => rfl

namespace Machine

/-- Settles O5: what the port decodes to is what a step runs. -/
theorem stepRunsPresentedCommand : Obligations.StepRunsPresentedCommand := by
  unfold Obligations.StepRunsPresentedCommand
  intro s i bs rest hwf henc hport
  exact step_of_decodePort (hport ▸ portEncodingRoundTrip s.params i bs rest hwf henc)

/-- Settles O4: the step's own branch on the decoded port. -/
theorem stepRunsDecodedInstruction : Obligations.StepRunsDecodedInstruction := by
  unfold Obligations.StepRunsDecodedInstruction
  exact fun _ _ _ h => step_of_decodePort h

/-! ### The beats of a QUEUE_FRAME, cut at a beat -/

/-- Cut among the header's beats. -/
theorem take_queueFrameBeats_header (addr type : Byte) (payload : List Byte) {k : Nat} (hk : k < 3) :
    (queueFrameBeats addr type payload).take k =
      ([addr, type, BitVec.ofNat 8 payload.length].take k).map queueBeat := by
  rw [queueFrameBeats_eq, List.take_append_of_le_length (Nat.le_of_lt hk), List.map_take]

theorem drop_queueFrameBeats_header (addr type : Byte) (payload : List Byte) {k : Nat} (hk : k < 3) :
    (queueFrameBeats addr type payload).drop k =
      ([addr, type, BitVec.ofNat 8 payload.length].drop k).map queueBeat ++ payload.map queueBeat := by
  rw [queueFrameBeats_eq, List.drop_append_of_le_length (Nat.le_of_lt hk), List.map_drop]

/-- Cut after `m` payload beats: the header is whole. -/
theorem take_queueFrameBeats_payload (addr type : Byte) (payload : List Byte) (m : Nat) :
    (queueFrameBeats addr type payload).take (m + 3) =
      [addr, type, BitVec.ofNat 8 payload.length].map queueBeat ++ (payload.take m).map queueBeat := by
  rw [queueFrameBeats, ← List.map_take, ← List.map_append]
  rfl

theorem drop_queueFrameBeats_payload (addr type : Byte) (payload : List Byte) (m : Nat) :
    (queueFrameBeats addr type payload).drop (m + 3) = (payload.drop m).map queueBeat := by
  rw [queueFrameBeats, ← List.map_drop]
  rfl

theorem length_queueFrameBeats (addr type : Byte) (payload : List Byte) :
    (queueFrameBeats addr type payload).length = payload.length + 3 := by
  simp [queueFrameBeats]

/-! ### What follows the cut -/

section
variable (addr type : Byte) {payload : List Byte} {k : Nat}

/-- Nothing follows: the QUEUE_FRAME waits for its remaining beats (D2, log 6). -/
theorem decodeQueueFrame_short (hn : payload.length ≤ 255) (hk : k < (queueFrameBeats addr type payload).length) :
    decodeQueueFrame ((queueFrameBeats addr type payload).take k) = .error .incompleteQueueFrame := by
  rw [length_queueFrameBeats] at hk
  rcases Nat.lt_or_ge k 3 with hk3 | hk3
  · rw [take_queueFrameBeats_header addr type payload hk3]
    exact decodeQueueFrame_of_header_error (takeQueueBytes_short _ 3 (by simp; omega))
  · obtain ⟨m, rfl⟩ := Nat.exists_eq_add_of_le' hk3
    rw [take_queueFrameBeats_payload, decodeQueueFrame_of_header (takeQueueBytes_header ..), toNat_payloadCount hn,
      takeQueueBytes_short _ _ (by simp; omega)]
    rfl

/-- A reset beat follows: the QUEUE_FRAME is abandoned (R240, log 9). -/
theorem decodeQueueFrame_abandoned (hn : payload.length ≤ 255) (hk : k < (queueFrameBeats addr type payload).length)
    {b : Beat} (hb : b.rst = true) (rest : List Beat) :
    decodeQueueFrame ((queueFrameBeats addr type payload).take k ++ b :: rest) = .error (.abandonedByReset rest) := by
  rw [length_queueFrameBeats] at hk
  rcases Nat.lt_or_ge k 3 with hk3 | hk3
  · rw [take_queueFrameBeats_header addr type payload hk3]
    exact decodeQueueFrame_of_header_error (takeQueueBytes_reset _ 3 b rest hb (by simp; omega))
  · obtain ⟨m, rfl⟩ := Nat.exists_eq_add_of_le' hk3
    rw [take_queueFrameBeats_payload, List.append_assoc, decodeQueueFrame_of_header (takeQueueBytes_header ..),
      toNat_payloadCount hn, takeQueueBytes_reset _ _ b rest hb (by simp; omega)]
    rfl

/-- Another command's beat follows, and then the remaining beats: the QUEUE_FRAME is whole and the beat waits (R200,
log 7). -/
theorem decodeQueueFrame_around (hn : payload.length ≤ 255) (hk : k < (queueFrameBeats addr type payload).length)
    {c : Beat} (hr : c.rst = false) (ho : c.op ≠ 4) (rest : List Beat) :
    decodeQueueFrame
        ((queueFrameBeats addr type payload).take k ++ c :: ((queueFrameBeats addr type payload).drop k ++ rest)) =
      .ok (.queueFrame addr type payload, c :: rest) := by
  rcases Nat.lt_or_ge k 3 with hk3 | hk3
  · have hheader := takeQueueBytes_around ([addr, type, BitVec.ofNat 8 payload.length].take k)
      ([addr, type, BitVec.ofNat 8 payload.length].drop k) c (payload.map queueBeat ++ rest) hr ho
    have hpayload : takeQueueBytes payload.length (c :: (payload.map queueBeat ++ rest)) = .ok (payload, c :: rest) := by
      simpa using takeQueueBytes_around [] payload c rest hr ho
    rw [← List.length_append, List.take_append_drop] at hheader
    rw [take_queueFrameBeats_header addr type payload hk3, drop_queueFrameBeats_header addr type payload hk3,
      List.append_assoc, decodeQueueFrame_of_header hheader, toNat_payloadCount hn, hpayload]
    rfl
  · obtain ⟨m, rfl⟩ := Nat.exists_eq_add_of_le' hk3
    have hpayload := takeQueueBytes_around (payload.take m) (payload.drop m) c rest hr ho
    rw [← List.length_append, List.take_append_drop] at hpayload
    rw [take_queueFrameBeats_payload, drop_queueFrameBeats_payload, List.append_assoc,
      decodeQueueFrame_of_header (takeQueueBytes_header ..), toNat_payloadCount hn, hpayload]
    rfl

end

/-! ### A step at the cut -/

theorem step_of_decodePort_error {s : State} {e : DecodeError} (h : decodePort s.port = .error e) :
    step s = .next (s.accept s.port) := by
  rw [step, h]

/-- Settles O3: at the head of the port the pin is seen first; behind a QUEUE_FRAME's first beats its decoder sees it. -/
theorem resetPinOverridesPort : Obligations.ResetPinOverridesPort := by
  unfold Obligations.ResetPinOverridesPort
  intro s addr type payload k b rest hn hk hb hport
  have hqueue := decodeQueueFrame_abandoned addr type hn hk hb rest
  have hdecode : decodePort s.port = .ok (.reset, rest) := by
    rw [hport]
    cases k with
    | zero => exact decodePort_reset hb rest
    | succ k => exact decodePort_abandoned hqueue
  exact step_of_decodePort hdecode

/-- Settles O6: what is cut short waits; a beat of another command is left for the next step. -/
theorem stepWaitsForWholeCommand : Obligations.StepWaitsForWholeCommand := by
  unfold Obligations.StepWaitsForWholeCommand
  refine fun s addr type payload k hn hk => ⟨fun hport => ?waits, fun c rest hpos hr ho hport => ?runs⟩
  case waits =>
    have hqueue := decodeQueueFrame_short addr type hn hk
    obtain ⟨e, hdecode⟩ : ∃ e, decodePort s.port = .error e := by
      rw [hport]
      cases k with
      | zero => exact ⟨.portIdle, rfl⟩
      | succ k => exact ⟨_, decodePort_queueBeat hqueue (by simp)⟩
    exact step_of_decodePort_error hdecode
  case runs =>
    obtain ⟨j, rfl⟩ := Nat.exists_eq_add_of_le' hpos
    have hqueue := decodeQueueFrame_around addr type hn hk hr ho rest
    exact step_of_decodePort (hport ▸ decodePort_queueBeat hqueue (by simp))

/-- Settles O7: each word is read by running the decoder on it. -/
theorem writtenWordsDecode : Obligations.WrittenWordsDecode := by
  unfold Obligations.WrittenWordsDecode
  refine ⟨rfl, rfl, rfl, rfl, ?channels, ?notLocal, rfl⟩
  case channels => decide +kernel
  case notLocal => decide +kernel

end Machine
end Sys2Proof

/-! The event port and the wire: an event's beats give it back, and so do the bytes of a frame-class instruction; settles
O10 and O9. -/

namespace Sys2Proof

/-! ### The event port -/

/-- A beat carries its byte in bits 7:0 (D2). -/
theorem setWidth_evtData (b : Byte) : ((b.setWidth 32 : Word32).setWidth 8 : Byte) = b := by simp

/-- The first beat of a multi-byte event carries its kind, which is what selects the decoder (R79). -/
theorem evtByteBeats_eq_cons (k : BitVec 4) {xs : List Byte} (h : xs ≠ []) :
    ∃ b bs, evtByteBeats k true xs = b :: bs ∧ b.kind = k := by
  match xs, h with
  | [x], _ => exact ⟨_, _, rfl, rfl⟩
  | x :: y :: ys, _ => exact ⟨_, _, rfl, rfl⟩

theorem decodeEvtBytes_beats (mk : List Byte → Event) (k : BitVec 4) {xs : List Byte} (h : xs ≠ [])
    (rest : List EvtBeat) : decodeEvtBytes mk k (evtByteBeats k true xs ++ rest) = .ok (mk xs, rest) := by
  rw [decodeEvtBytes, takeEvtBytes_beats k true xs rest h]

/-- Where the port selects the decoder `mk` by the kind `k`, it reads back the bytes that were encoded under `k`. -/
theorem decodeEvent_beats {mk : List Byte → Event} {k : BitVec 4}
    (hselect : ∀ b bs, b.kind = k → decodeEvent (b :: bs) = decodeEvtBytes mk k (b :: bs)) {xs : List Byte}
    (h : 1 ≤ xs.length) (rest : List EvtBeat) : decodeEvent (evtByteBeats k true xs ++ rest) = .ok (mk xs, rest) := by
  have hne : xs ≠ [] := List.ne_nil_of_length_pos h
  obtain ⟨b, bs, hbeats, hkind⟩ := evtByteBeats_eq_cons k hne
  rw [← decodeEvtBytes_beats mk k hne rest, hbeats]
  exact hselect b _ hkind

/-- Settles O10: one beat by its kind; several by the kind of the first and the mark of the last. -/
theorem eventEncodingRoundTrip : Obligations.EventEncodingRoundTrip := by
  unfold Obligations.EventEncodingRoundTrip
  intro p e rest hwf
  cases e
  case rawByte b => exact congrArg (fun x => Except.ok (Event.rawByte x, rest)) (setWidth_evtData b)
  case frameValid f =>
    obtain ⟨hmin, _⟩ := of_decide_eq_true hwf
    exact decodeEvent_beats (fun _ _ hkind => by simp [decodeEvent, hkind]) (by omega) rest
  case linkStatistics q =>
    exact decodeEvent_beats (fun _ _ hkind => by simp [decodeEvent, hkind]) (of_decide_eq_true hwf).1 rest
  case gps q =>
    exact decodeEvent_beats (fun _ _ hkind => by simp [decodeEvent, hkind]) (of_decide_eq_true hwf).1 rest
  case txWrite x =>
    obtain ⟨hmin, _⟩ := of_decide_eq_true hwf
    exact decodeEvent_beats (fun _ _ hkind => by simp [decodeEvent, hkind]) (by omega) rest
  case linkUp | linkDown | channelsUpdated | txFlush | setLineSpeed => rfl

/-! ### The wire -/

/-- A frame of a class row is valid, and its class selects the row's instruction back (R140, R142). -/
theorem decode_wire_of_class {p : Params} {now : Word32} {f : Frame} {c : FrameClass} {i : Instr}
    (hwf : (f.valid p && decide (f.classify p = c)) = true) (hi : f.classify p = c → frameInstr p now f = i) :
    decode p now (.wire f.bytes) = .ok i := by
  obtain ⟨hvalid, hclass⟩ := Bool.and_eq_true_iff.1 hwf
  rw [← hi (of_decide_eq_true hclass)]
  exact Machine.decodeFrame_bytes now hvalid

/-- Settles O9: the bytes give the frame back, and its class the instruction. -/
theorem frameEncodingRoundTrip : Obligations.FrameEncodingRoundTrip := by
  unfold Obligations.FrameEncodingRoundTrip
  intro p now i bs hwf henc htime
  cases i <;> cases henc
  case frameChannels f t =>
    obtain rfl := htime f t rfl
    obtain ⟨hclass, -⟩ := frameInstr_eq p t f
    exact decode_wire_of_class hwf hclass
  case frameLinkStats f =>
    obtain ⟨-, hclass, -⟩ := frameInstr_eq p now f
    exact decode_wire_of_class hwf hclass
  case frameGps f =>
    obtain ⟨-, -, hclass, -⟩ := frameInstr_eq p now f
    exact decode_wire_of_class hwf hclass
  case frameUnknownType f =>
    obtain ⟨-, -, -, hclass, -⟩ := frameInstr_eq p now f
    exact decode_wire_of_class hwf hclass
  case frameNotLocal f =>
    obtain ⟨-, -, -, -, hclass⟩ := frameInstr_eq p now f
    exact decode_wire_of_class hwf hclass

end Sys2Proof

/-! The checksum as a linear code: the table form (R102), composition, residue, linearity and single-bit errors (R103);
settles O13, O14 and O15. -/

namespace Sys2Proof.Machine

/-! ### The table form -/

/-- A byte enters the register by XOR, so the register and the byte matter only through their XOR (R100). -/
theorem crcByte_eq_crc8_singleton (crc x : Byte) : crcByte crc x = crc8 [crc ^^^ x] := by
  rw [crc8_eq_crcFrom, crcFrom_cons, crcFrom_nil, crcByte_eq_iterate_crcStep, crcByte_eq_iterate_crcStep]
  exact congrArg crcStep^[8] BitVec.zero_xor.symm

/-- The 256 entries of R102, each computed. -/
theorem crcTable_getD (v : Byte) : crcTable.getD v.toNat 0 = crc8 [v] := by
  revert v
  decide +kernel

/-- Settles O13: each lookup is the step of one byte. -/
theorem crcTableForm : Obligations.CrcTableForm := by
  unfold Obligations.CrcTableForm
  refine ⟨crcTable_getD, fun s => ?_⟩
  have hlookup : (fun crc x : Byte => crcTable.getD (crc ^^^ x).toNat 0) = crcByte := by
    funext crc x
    rw [crcTable_getD, crcByte_eq_crc8_singleton]
  rw [crc8ByTable, hlookup, crc8_eq_crcFrom, crcFrom]

/-! ### One step is linear and loses nothing -/

/-- Both forms of a step at once: the shift, and the polynomial when the top bit leaves (R101). -/
theorem crcStep_eq (c : Byte) : crcStep c = (c <<< 1) ^^^ (if c.msb then Config.crcPoly else 0) := by
  cases h : c.msb <;> simp [crcStep, h]

theorem crcStep_xor (a b : Byte) : crcStep (a ^^^ b) = crcStep a ^^^ crcStep b := by
  have hpoly : (if (a ^^^ b).msb then Config.crcPoly else 0) =
      (if a.msb then Config.crcPoly else 0) ^^^ (if b.msb then Config.crcPoly else 0) := by
    rw [BitVec.msb_xor]
    cases a.msb <;> cases b.msb <;> simp
  rw [crcStep_eq, crcStep_eq, crcStep_eq, hpoly, BitVec.shiftLeft_xor_distrib]
  ac_rfl

/-- Only the zero register steps to zero, since the polynomial's lowest bit is set. -/
theorem crcStep_eq_zero_iff (c : Byte) : crcStep c = 0 ↔ c = 0 := by
  revert c
  decide +kernel

theorem crcStep_injective : Function.Injective crcStep := fun a b h => by
  have hxor : crcStep (a ^^^ b) = 0 := by rw [crcStep_xor, h, BitVec.xor_self]; rfl
  exact BitVec.xor_eq_zero_iff.1 ((crcStep_eq_zero_iff _).1 hxor)

theorem iterate_crcStep_xor (n : Nat) (a b : Byte) : crcStep^[n] (a ^^^ b) = crcStep^[n] a ^^^ crcStep^[n] b := by
  induction n generalizing a b with
  | zero => rfl
  | succ n ih => rw [Function.iterate_succ_apply, crcStep_xor, ih]; rfl

theorem iterate_crcStep_eq_zero_iff (n : Nat) (c : Byte) : crcStep^[n] c = 0 ↔ c = 0 := by
  have hzero : crcStep^[n] 0 = 0 := Function.iterate_fixed crcStep_zero n
  exact ⟨fun h => crcStep_injective.iterate n (h.trans hzero.symm), fun h => h ▸ hzero⟩

/-! ### One byte, and a sequence -/

theorem crcByte_xor (a b x y : Byte) : crcByte (a ^^^ b) (x ^^^ y) = crcByte a x ^^^ crcByte b y := by
  simp only [crcByte_eq_iterate_crcStep, ← iterate_crcStep_xor]
  congr 1
  ac_rfl

theorem crcByte_right_injective (crc : Byte) : Function.Injective (crcByte crc) := fun x y h => by
  rw [crcByte_eq_iterate_crcStep, crcByte_eq_iterate_crcStep] at h
  exact (BitVec.xor_right_inj crc).1 (crcStep_injective.iterate 8 h)

theorem crcByte_left_injective (x : Byte) : Function.Injective (crcByte · x) := fun a b h => by
  simp only [crcByte_eq_iterate_crcStep] at h
  exact (BitVec.xor_left_inj x).1 (crcStep_injective.iterate 8 h)

/-- Different registers stay different over any bytes. -/
theorem crcFrom_injective (s : List Byte) : Function.Injective (crcFrom · s) := by
  induction s with
  | nil => exact fun _ _ h => h
  | cons x s ih => exact fun _ _ h => crcByte_left_injective x (ih h)

theorem crcFrom_xor (a b : List Byte) (h : a.length = b.length) (c d : Byte) :
    crcFrom (c ^^^ d) (List.zipWith (· ^^^ ·) a b) = crcFrom c a ^^^ crcFrom d b := by
  induction a generalizing b c d with
  | nil =>
    obtain rfl := List.length_eq_zero_iff.1 h.symm
    rfl
  | cons x a ih =>
    obtain ⟨y, b, rfl⟩ := List.exists_cons_of_length_eq_add_one h.symm
    rw [List.zipWith_cons_cons, crcFrom_cons, crcFrom_cons, crcFrom_cons, crcByte_xor, ih b (by simpa using h)]

/-- The residue: a sequence followed by its own checksum leaves zero, and no other byte does. -/
theorem crc8_append_singleton_eq_zero_iff (s : List Byte) (c : Byte) : crc8 (s ++ [c]) = 0 ↔ c = crc8 s := by
  rw [crc8_append_singleton, iterate_crcStep_eq_zero_iff]
  exact BitVec.xor_eq_zero_iff.trans eq_comm

/-! ### One bit -/

theorem xor_twoPow_ne {k : Nat} (hk : k < 8) (x : Byte) : x ^^^ BitVec.twoPow 8 k ≠ x := fun h => by
  have hbit := congrArg (BitVec.getLsbD · k) h
  simp [hk] at hbit

theorem crc8_changed_bit (a b : List Byte) (x : Byte) {k : Nat} (hk : k < 8) :
    crc8 (a ++ (x ^^^ BitVec.twoPow 8 k) :: b) ≠ crc8 (a ++ x :: b) := fun h => by
  rw [crc8_append, crc8_append] at h
  exact xor_twoPow_ne hk x (crcByte_right_injective _ (crcFrom_injective b h))

theorem checksum_of_valid {p : Params} {f : Frame} (h : f.valid p = true) :
    f.checksum = crc8 (f.typeTag :: f.payload) := by
  obtain ⟨_, hcrc⟩ := Bool.and_eq_true_iff.1 h
  exact of_decide_eq_true hcrc

/-- Settles O14: a register step is an injective linear map, and so is what a sequence makes of them. -/
theorem crcLaws : Obligations.CrcLaws := by
  unfold Obligations.CrcLaws
  refine ⟨crc8_append, crc8_append_singleton_eq_zero_iff, fun a b h => ?linear, fun a b x k => crc8_changed_bit a b x,
    fun p f k hk hvalid => ?checksum, fun _ _ _ => rfl⟩
  case linear =>
    rw [crc8_eq_crcFrom, crc8_eq_crcFrom, crc8_eq_crcFrom, ← crcFrom_xor a b h, BitVec.xor_self]
    rfl
  case checksum =>
    refine Bool.eq_false_iff.2 fun hchanged => xor_twoPow_ne hk f.checksum ?_
    exact (checksum_of_valid hchanged).trans (checksum_of_valid hvalid).symm

/-- Settles O15: the instruction's one write is `crcOut`. -/
theorem crc8InstructionReturns : Obligations.Crc8InstructionReturns := fun _ _ => rfl

end Sys2Proof.Machine

/-! The numbers a payload carries: the packed channels bit by bit (R77), their rescale (R145), and big-endian fields (R55);
settles O33, O34 and O35. -/

namespace Sys2Proof.Machine

/-! ### The packed channels -/

/-- Bit `n` of the packed field is bit `n mod 8` of payload byte `n / 8` (R77). -/
theorem testBit_packedValue (bs : List Byte) (n : Nat) :
    (packedValue bs).testBit n = (bs.getD (n / 8) 0).getLsbD (n % 8) := by
  induction bs generalizing n with
  | nil => simp [packedValue]
  | cons b bs ih =>
    have hpacked : packedValue (b :: bs) = 2 ^ 8 * packedValue bs + b.toNat := Nat.add_comm _ _
    rw [hpacked, Nat.testBit_two_pow_mul_add _ b.isLt]
    by_cases h : n < 8
    · rw [if_pos h, BitVec.testBit_toNat, Nat.div_eq_of_lt h, Nat.mod_eq_of_lt h, List.getD_cons_zero]
    · have hdiv : n / 8 = (n - 8) / 8 + 1 := by omega
      have hmod : n % 8 = (n - 8) % 8 := by omega
      rw [if_neg h, ih, hdiv, hmod, List.getD_cons_succ]

/-- The first 22 bytes hold all 176 bits. -/
theorem getD_take_22 (payload : List Byte) {n : Nat} (h : n < 22) : (payload.take 22).getD n 0 = payload.getD n 0 := by
  rw [List.getD, List.getD, List.getElem?_take_of_lt h]

/-- Settles O33: the channel is an 11-bit window of the packed field, at bit `11 i`. -/
theorem channelBitsUnpacked : Obligations.ChannelBitsUnpacked := by
  unfold Obligations.ChannelBitsUnpacked
  intro payload i j _ hi
  refine ⟨Nat.mod_lt _ (by decide), fun hj => ?_⟩
  rw [rawChannel, Nat.testBit_mod_two_pow, Nat.testBit_div_two_pow, testBit_packedValue, decide_eq_true hj,
    Bool.true_and, Nat.add_comm j, getD_take_22 payload (by omega)]

/-! ### The rescale -/

theorem rescale_chInMin {p : Params} {r : Nat} (h : (r : Int) = p.chInMin) : rescale p r = p.chOutMin := by
  rw [rescale, h, Int.sub_self, Int.zero_mul, Int.zero_tdiv, Int.zero_add]

/-- The span of the input cancels, since R145 divides by it (log 1). -/
theorem rescale_chInMax {p : Params} {r : Nat} (h : (r : Int) = p.chInMax) : rescale p r = p.chOutMax := by
  have hspan : p.chInMax - p.chInMin ≠ 0 := sub_ne_zero.2 p.chIn_ne.symm
  rw [rescale, h, Int.mul_tdiv_cancel_left _ hspan, Int.sub_add_cancel]

/-- Truncation toward zero is monotone, so the whole rescale is. -/
theorem rescale_mono {p : Params} {a b : Nat} (hin : p.chInMin < p.chInMax) (hout : p.chOutMin ≤ p.chOutMax)
    (h : a ≤ b) : rescale p a ≤ rescale p b := by
  refine Int.add_le_add_right (Int.tdiv_le_tdiv (Int.sub_pos.2 hin) ?_) _
  exact Int.mul_le_mul_of_nonneg_right (Int.sub_le_sub_right (Int.ofNat_le.2 h) _) (Int.sub_nonneg.2 hout)

/-- Settles O34: the defaults' range is the two values at the ends of `0 .. 2047`. -/
theorem rescaleExactAndMonotone : Obligations.RescaleExactAndMonotone := by
  unfold Obligations.RescaleExactAndMonotone
  have hfirst : rescale Params.default 0 = 896 := by decide
  have hlast : rescale Params.default 2047 = 2143 := by decide
  have hmono : ∀ {a b : Nat}, a ≤ b → rescale Params.default a ≤ rescale Params.default b :=
    rescale_mono (by decide) (by decide)
  exact ⟨fun _ _ => rescale_chInMin, fun _ _ => rescale_chInMax, fun _ _ _ => rescale_mono,
    fun r hr => ⟨hfirst ▸ hmono (Nat.zero_le r), hlast ▸ hmono hr⟩, hfirst, by decide, hlast⟩

/-! ### Big-endian fields -/

/-- One byte more multiplies what is there by 256 and adds the byte (R55). -/
theorem bigEndianField_succ {payload : List Byte} {o w : Nat} (h : o + w < payload.length) :
    bigEndianField payload o (w + 1) = bigEndianField payload o w * 256 + (payload.getD (o + w) 0).toNat := by
  have hw : w < (payload.drop o).length := by rw [List.length_drop]; omega
  rw [bigEndianField, bigEndianField, List.take_succ_eq_append_getElem hw, List.foldl_append, List.getElem_drop,
    List.getD_eq_getElem _ _ h]
  rfl

/-- Settles O35: every byte already there gains one factor of 256. -/
theorem bigEndianFieldAssembly : Obligations.BigEndianFieldAssembly := by
  unfold Obligations.BigEndianFieldAssembly
  intro payload o w h
  induction w with
  | zero => rfl
  | succ w ih =>
    have hshift : ∀ j ∈ List.range w, (payload.getD (o + j) 0).toNat * 2 ^ (8 * (w + 1 - 1 - j)) =
        (payload.getD (o + j) 0).toNat * 2 ^ (8 * (w - 1 - j)) * 256 := fun j hj => by
      have hexp : 8 * (w + 1 - 1 - j) = 8 * (w - 1 - j) + 8 := by
        have := List.mem_range.1 hj
        omega
      rw [hexp, Nat.pow_add, ← Nat.mul_assoc]
    rw [bigEndianField_succ h, ih (Nat.le_of_succ_le h), List.range_succ, List.map_append, List.sum_append,
      List.map_congr_left hshift, List.sum_map_mul_right]
    simp

end Sys2Proof.Machine

/-! The buffer's operations outside and at the ends of their ranges, and VALIDATE as a whole; settles O18, O20, O21, O22,
O24 and O25. -/

namespace Sys2Proof.Machine

/-! ### Discards -/

theorem discardFrame_zero (s : State) : discardFrame 0 s = .next s := if_pos rfl

/-- Settles O18: SHIFTN of nothing moves nothing; otherwise it is the shift of R53. -/
theorem shiftNDiscardsFrame : Obligations.ShiftNDiscardsFrame := by
  unfold Obligations.ShiftNDiscardsFrame
  intro s n hn hcap
  rcases Nat.eq_zero_or_pos n with rfl | hpos
  · exact ⟨s, discardFrame_zero s, fun _ _ => rfl, rfl⟩
  · exact ⟨s.shifted n, discardFrame_eq hpos hn hcap, fun _ => State.readByte_shifted_valid s, rfl⟩

/-- What lies at and beyond the new cursor of a shift is stale (R31, log 4). -/
theorem State.readByte_shifted_stale (s : State) {k a : Nat} (h : (s.shifted k).cursor ≤ a) :
    (s.shifted k).readByte a = Config.staleByte a := by
  rw [State.shifted_cursor] at h
  rw [State.readByte_shifted, if_neg (by omega)]

theorem discardIfFull_of_full {s : State} (h : s.cursor = s.params.cap) : discardIfFull s = .next s.emptied := if_pos h

/-- Settles O20: each of the three discards is a shift or empties the buffer. -/
theorem discardsScrubStaleLocations : Obligations.DiscardsScrubStaleLocations := by
  unfold Obligations.DiscardsScrubStaleLocations
  intro s t i hi hexec a ha
  rcases hi with rfl | ⟨n, hn, rfl⟩ | ⟨rfl, hfull⟩
  · obtain ⟨_, _, rfl⟩ := discardOne_cases hexec
    exact State.readByte_shifted_stale _ ha
  · obtain ⟨_, _, rfl⟩ := discardFrame_cases hn hexec
    exact State.readByte_shifted_stale _ ha
  · cases (discardIfFull_of_full hfull).symm.trans hexec
    exact State.readByte_emptied s a

/-- Settles O22: the guard of OVERFLOW and its negation. -/
theorem overflowDiscardsFullBuffer : Obligations.OverflowDiscardsFullBuffer := by
  unfold Obligations.OverflowDiscardsFullBuffer
  exact fun s => ⟨discardIfFull_of_full, fun hroom => if_neg hroom⟩

/-! ### Stops -/

theorem leftShift_of_short {k : Nat} {s : State} (h : s.cursor < k) : leftShift k s = .fault .shiftOutsideBuffer :=
  if_neg fun ⟨_, hk, _⟩ => Nat.not_le_of_lt h hk

/-- Settles O21: each guard is the bound of its precondition (R22, R110, R116, R117). -/
theorem internalOperationsStopOutsidePreconditions : Obligations.InternalOperationsStopOutsidePreconditions := by
  unfold Obligations.InternalOperationsStopOutsidePreconditions
  refine ⟨fun s b hfull => if_neg (Nat.not_lt.2 hfull), fun s hempty => ?shift1, fun s n hn => ?shiftN⟩
  case shift1 => exact leftShift_of_short (by rw [State.emit_cursor, hempty]; exact Nat.one_pos)
  case shiftN => exact (if_neg (Nat.ne_zero_of_lt hn)).trans (leftShift_of_short hn)

/-! ### VALIDATE -/

/-- Settles O24: the loop ends quiescent, and its moves write no more than `Progress` lists. -/
theorem validateEndsQuiescent : Obligations.ValidateEndsQuiescent := by
  unfold Obligations.ValidateEndsQuiescent
  intro s now hcap
  obtain ⟨t, hexec, hprog, hquiet⟩ := validateBuffer_spec now hcap
  obtain ⟨evs, hevents, _⟩ := hprog.events
  exact ⟨t, hexec, hquiet, hprog.filled, hprog.cursor_le, ⟨evs, hevents⟩, hprog.rest⟩

/-- Settles O25: a quiescent buffer is never full (R35). -/
theorem overflowNeverFires : Obligations.OverflowNeverFires := by
  unfold Obligations.OverflowNeverFires
  intro s t now hcap hexec
  obtain ⟨u, hu, _, hquiet⟩ := validateBuffer_spec now hcap
  cases hu.symm.trans hexec
  exact ⟨State.cursor_lt_cap hquiet, discardIfFull_of_quiescent hquiet⟩

end Sys2Proof.Machine

/-! The hand-off: DISPATCH is the frame-class instruction of the head frame, whatever bytes it reports, and a channel-data
frame touches the link and decodes the channels; settles O28, O29, O30, O32 and O36. -/

namespace Sys2Proof.Machine

/-! ### DISPATCH and the frame classes -/

/-- The class instruction of a frame performs the hand-off of that frame (R140 to R149). -/
theorem exec_frameInstr (now : Word32) (f : Frame) (s : State) :
    exec (frameInstr s.params now f) s = handOff now f s := by
  rw [handOff_eq, frameInstr]
  cases f.classify s.params <;> rfl

/-- What the hand-off leaves does not depend on the bytes it reports, but for FRAME_VALID itself (R140). -/
theorem handOffAs_reports (now : Word32) (f : Frame) (s : State) :
    ∃ (t : State) (evs : List Event), t.buf = s.buf ∧ t.cursor = s.cursor ∧
      ∀ bytes, handOffAs bytes now f s = .next { t with events := s.events ++ .frameValid bytes :: evs } := by
  simp only [handOffAs_eq]
  cases f.classify s.params with
  | channels =>
    exact ⟨handleChannels f.payload now s, (if s.linkUp then [] else [.linkUp]) ++ [.channelsUpdated],
      by rw [handleChannels_eq], by rw [handleChannels_eq], fun bytes => by
        rw [handleChannels_eq, handleChannels_eq, State.emit_events, List.append_assoc, List.append_assoc]
        rfl⟩
  | linkStats => exact ⟨s, [.linkStatistics f.payload], rfl, rfl, fun bytes => by simp [State.emit]⟩
  | gps => exact ⟨s, [.gps f.payload], rfl, rfl, fun bytes => by simp [State.emit]⟩
  | unknownType => exact ⟨s, [], rfl, rfl, fun _ => rfl⟩
  | notLocal => exact ⟨s, [], rfl, rfl, fun _ => rfl⟩

/-- Settles O28: the two hand off the same frame, each with its own bytes in FRAME_VALID. -/
theorem dispatchRunsFrameClass : Obligations.DispatchRunsFrameClass := by
  unfold Obligations.DispatchRunsFrameClass
  intro s now
  obtain ⟨t, evs, hbuf, hcursor, hreports⟩ := handOffAs_reports now s.headFrame s
  exact ⟨_, _, evs, hreports _, (exec_frameInstr now s.headFrame s).trans (hreports _), rfl, rfl, rfl,
    State.headFrame_bytes, fun hvalid => (frameInstr_wf now (State.headFrame_valid hvalid)).1,
    State.readByte_congr hbuf, hcursor⟩

/-- The hand-off reads and writes nothing of the buffer (R140). -/
theorem handOff_withBuffer {now : Word32} {f : Frame} {s t : State} (h : handOff now f s = .next t) (m : Memory)
    (n : Nat) : handOff now f { s with buf := m, cursor := n } = .next { t with buf := m, cursor := n } := by
  rw [handOff_eq] at h ⊢
  cases h
  cases f.classify s.params with
  | channels => simp [handleChannels_eq, State.emit]
  | linkStats | gps | unknownType | notLocal => rfl

/-- Two events in a row (R9). -/
theorem State.emit_emit (s : State) (d e : Event) : (s.emit d).emit e = { s with events := s.events ++ [d, e] } := by
  simp [State.emit]

/-- Settles O30: the two handlers forward the payload in one event. -/
theorem recordFramesForwardPayload : Obligations.RecordFramesForwardPayload := by
  unfold Obligations.RecordFramesForwardPayload
  intro s f
  exact ⟨congrArg Host.Outcome.next (s.emit_emit _ _), congrArg Host.Outcome.next (s.emit_emit _ _)⟩

/-! ### The channels -/

theorem getElem_decodedChannels (p : Params) (payload : List Byte) (i : Fin 16) :
    (decodedChannels p payload)[i] = rescale p (rawChannel payload i.val) := by
  simp [decodedChannels]

/-- Settles O29: the handler's record update, with the link's edge in its event list. -/
theorem frameChannelsEffect : Obligations.FrameChannelsEffect := by
  unfold Obligations.FrameChannelsEffect
  intro s f now
  have hupdate := handleChannels_eq f.payload now (s.emit (.frameValid f.bytes))
  refine ⟨_, congrArg Host.Outcome.next hupdate, fun h22 => ?_, rfl⟩
  simp only [if_pos h22]
  exact ⟨getElem_decodedChannels s.params f.payload, rfl⟩

/-- The first bytes of a read are the read of fewer bytes. -/
theorem State.take_memRead (s : State) (a : Nat) {m n : Nat} (h : m ≤ n) : (s.memRead a n).take m = s.memRead a m := by
  obtain ⟨k, rfl⟩ := Nat.exists_eq_add_of_le h
  rw [State.memRead_append, List.take_left' (State.memRead_length s a m)]

/-- The channels read the first 22 payload bytes only (R144). -/
theorem rawChannel_take (payload : List Byte) (i : Nat) : rawChannel (payload.take 22) i = rawChannel payload i := by
  rw [rawChannel, rawChannel, List.take_take, Nat.min_self]

/-- Settles O32: a declared length of 0x18 is a payload of 22 bytes, of which the channels read no more. -/
theorem chDecodeWritesChannels : Obligations.ChDecodeWritesChannels := by
  unfold Obligations.ChDecodeWritesChannels
  intro s
  refine ⟨_, congrArg Host.Outcome.next (decodeChannels_eq s.headFrame.payload s), fun hlen => ?_, rfl⟩
  have hlong : 22 ≤ s.headLen - 2 := Nat.le_sub_of_add_le hlen
  have hpayload : s.headFrame.payload = s.memRead 3 (s.headLen - 2) := rfl
  simp only [hpayload, State.memRead_length, if_pos hlong]
  refine ⟨fun i => ?_, trivial⟩
  rw [getElem_decodedChannels, ← rawChannel_take, State.take_memRead s 3 hlong]

/-! ### The link -/

/-- Settles O36: the edge is the one case in which the flag and the event list change. -/
theorem linkTouchEffect : Obligations.LinkTouchEffect := by
  unfold Obligations.LinkTouchEffect
  refine fun s now => ⟨fun hdown => ?down, fun hup => ?up⟩
  case down => exact congrArg Host.Outcome.next ((touchLink_eq now s).trans (by simp [hdown]))
  case up => exact congrArg Host.Outcome.next ((touchLink_eq now s).trans (by simp [hup]))

end Sys2Proof.Machine

/-! Operations of one record update: RESET, NOP, SET_PASSTHROUGH and the event rows; settles O1, O2, O40, O46 and O51. -/

namespace Sys2Proof.Machine

/-- An empty memory reads as the free stale bytes everywhere (R31, log 4). -/
theorem State.readByte_of_buf_nil {s : State} (h : s.buf = []) (a : Nat) : s.readByte a = Config.staleByte a := by
  rw [State.readByte, h, Memory.read_nil]
  rfl

/-- Settles O1: the fields as `State.reset` writes them, over an empty memory. -/
theorem resetStateValues : Obligations.ResetStateValues :=
  ⟨rfl, rfl, rfl, rfl, rfl, State.readByte_of_buf_nil rfl⟩

/-- Settles O2: RESET empties the memory, and its record update leaves the rest. -/
theorem resetClearsBlock : Obligations.ResetClearsBlock := by
  unfold Obligations.ResetClearsBlock
  exact fun s => ⟨resetBlock s, rfl, rfl, rfl, State.readByte_of_buf_nil rfl, rfl⟩

/-- Settles O40: NOP answers the state it is given. -/
theorem nopChangesNothing : Obligations.NopChangesNothing := fun _ => rfl

/-- Settles O46: the two forms of the one record update. -/
theorem setPassthroughEffect : Obligations.SetPassthroughEffect := by
  unfold Obligations.SetPassthroughEffect
  exact fun s val v => ⟨execSetPassthrough_eq val none s, execSetPassthrough_eq val (some v) s⟩

/-- Settles O51: each row is the emit of its event. -/
theorem eventInstructionsAppendTheirEvent : Obligations.EventInstructionsAppendTheirEvent := by
  unfold Obligations.EventInstructionsAppendTheirEvent
  exact fun _ _ _ _ => ⟨rfl, rfl, rfl, rfl, rfl, rfl, rfl, rfl, rfl, rfl⟩

end Sys2Proof.Machine

/-! RX_BYTE: what it can answer, the last byte of a frame and the bytes before it, and the state table of R122; settles
O58, O59, O42, O43 and O45. -/

namespace Sys2Proof.Machine

/-! ### The last byte of a frame -/

theorem validateBuffer_wholeFrame {now : Word32} {s t : State} (hvalid : s.headValid = true)
    (hall : s.headLen + 2 = s.cursor) (hcap : s.cursor ≤ s.params.cap) (h : handOff now s.headFrame s = .next t) :
    validateBuffer now s = .next (t.shifted (s.headLen + 2)) := by
  obtain ⟨_, ⟨h3, hmax⟩, _, hcrc⟩ := s.headValid_iff.1 hvalid
  obtain ⟨t, hhand, _, hcursor, _, hdiscard⟩ := framePass_eq (now := now) hvalid hcap
  cases hhand.symm.trans h
  have hempty : (t.shifted (s.headLen + 2)).cursor = 0 := by rw [State.shifted_cursor, hcursor, hall, Nat.sub_self]
  rw [validateBuffer_complete now (by omega) h3 hmax hall.le, if_pos hcrc, h, Result.andThen_next, hdiscard,
    Result.andThen_next, validateBuffer_quiescent now (.inl (by omega))]

/-- The byte that completes a valid frame: the hand-off of the frame, then the discard of the whole buffer (R114, R195). -/
theorem exec_rxByte_completing {s t : State} {b : Byte} {now : Word32} (hmode : s.passthrough = false)
    (hvalid : ((s.stampByte now).pushByte b).headValid = true)
    (hall : ((s.stampByte now).pushByte b).headLen + 2 = s.cursor + 1)
    (h : handOff now ((s.stampByte now).pushByte b).headFrame ((s.stampByte now).pushByte b) = .next t) :
    exec (.rxByte b now) s = .next (t.shifted (s.cursor + 1)) := by
  obtain ⟨_, ⟨_, hmax⟩, _, _⟩ := State.headValid_iff _ |>.1 hvalid
  have hroom : s.cursor < s.params.cap := by
    rw [State.pushByte_params, State.stampByte_params] at hmax
    rw [Params.cap]
    omega
  obtain ⟨u, hexec, hvalidate, _⟩ := execRxByte_framed b now hmode hroom
  rw [validateBuffer_wholeFrame hvalid hall hroom h, hall] at hvalidate
  cases hvalidate
  exact hexec

/-! ### A frame fed byte by byte -/

/-- All bytes of a valid frame but the last are stored and do nothing else (R122). -/
theorem runCommands_feed_inside {s : State} {p q r : List Byte} {now : Word32} (hmode : s.passthrough = false)
    (hbytes : s.bytes = p) (hvalid : ValidFrame s.params (p ++ q ++ r)) (hr : r ≠ []) :
    ∃ v, runCommands (feed q now) s = some (v, []) ∧ v.bytes = p ++ q ∧
      v = { s with buf := v.buf, cursor := v.cursor, lastByteTime := v.lastByteTime, events := v.events } := by
  induction q generalizing s p with
  | nil => exact ⟨s, rfl, by simp [hbytes], rfl⟩
  | cons b q ih =>
    have hsplit : p ++ b :: q ++ r = p ++ b :: (q ++ r) := by simp
    obtain ⟨t, ht, htbytes, hframe⟩ := rxByte_inside_frame (now := now) hmode hbytes (hsplit ▸ hvalid) (by simp [hr])
    have htmode : t.passthrough = false := by rw [hframe]; exact hmode
    have htparams : t.params = s.params := by rw [hframe]
    have htevents : t.events = [] := by rw [hframe]
    obtain ⟨v, hrun, hvbytes, hv⟩ := ih htmode htbytes (by rw [htparams]; simpa using hvalid)
    refine ⟨v, ?_, by simpa using hvbytes, ?_⟩
    · simp only [feed, List.map_cons, runCommands, ht] at hrun ⊢
      rw [hrun, htevents]
      rfl
    · rw [hv, hframe]

theorem runCommands_singleton {i : Instr} {s t : State} (h : exec i { s with events := [] } = .next t) :
    runCommands [i] s = some (t, t.events) := by
  simp [runCommands, h]

/-- The last byte hands the frame on from the state that the run began in, the buffer apart (R140). -/
theorem runCommands_feed_last {s v t : State} {f : Frame} {p : List Byte} {c : Byte} {now : Word32}
    (hmode : s.passthrough = false) (hvalid : f.valid s.params = true) (hf : f.bytes = p ++ [c]) (hbytes : v.bytes = p)
    (hv : v = { s with buf := v.buf, cursor := v.cursor, lastByteTime := v.lastByteTime, events := v.events })
    (ht : handOff now f { s with events := [], lastByteTime := now } = .next t) :
    ∃ u, runCommands (feed [c] now) v = some (u, t.events) ∧ u.cursor = 0 ∧
      u = { t with buf := u.buf, cursor := 0, events := u.events } := by
  set x := (({ v with events := [] } : State).stampByte now).pushByte c with hx
  have hxstate : x = { s with events := [], lastByteTime := now, buf := x.buf, cursor := x.cursor } := by
    rw [hx, hv]; rfl
  have hxbytes : x.bytes = f.bytes := by
    rw [hx, State.bytes_pushByte, hf, ← hbytes]; rfl
  obtain ⟨hhead, hheadValid, hall⟩ := State.headFrame_of_bytes hxbytes (by rw [hxstate]; exact hvalid)
  have hhand : handOff now x.headFrame x = .next { t with buf := x.buf, cursor := x.cursor } := by
    rw [hhead, hxstate]
    exact handOff_withBuffer ht x.buf x.cursor
  have hvmode : ({ v with events := [] } : State).passthrough = false := by rw [hv]; exact hmode
  have hexec := exec_rxByte_completing hvmode hheadValid hall hhand
  have hcursor : ({ t with buf := x.buf, cursor := x.cursor } : State).cursor - (v.cursor + 1) = 0 := Nat.sub_self _
  have hrun := runCommands_singleton hexec
  refine ⟨_, hrun, hcursor, ?_⟩
  rw [State.shifted, hcursor]

/-- Settles O58: the bytes before the last wait in the buffer, and the last one completes the frame. -/
theorem framingCorrect : Obligations.FramingCorrect := by
  unfold Obligations.FramingCorrect
  intro s bs i now hmode hempty hdec
  obtain ⟨f, rfl, hvalid, rfl⟩ := decodeFrame_cases hdec
  have hne : f.bytes ≠ [] := List.ne_nil_of_length_pos (by simp)
  have hf : f.bytes = f.bytes.dropLast ++ [f.bytes.getLast hne] := (List.dropLast_append_getLast hne).symm
  have hnone : s.bytes = [] := List.length_eq_zero_iff.1 (by rw [State.bytes_length, hempty])
  obtain ⟨v, hrun, hbytes, hv⟩ := runCommands_feed_inside (s := s) (p := []) (q := f.bytes.dropLast)
    (r := [f.bytes.getLast hne]) (now := now) hmode hnone
    (by rw [List.nil_append, ← hf]; exact (validFrame_bytes _ _).2 hvalid) (by simp)
  obtain ⟨_, evs, _, _, hreports⟩ := handOffAs_reports now f { s with events := [], lastByteTime := now }
  have ht := hreports f.bytes
  obtain ⟨u, hlast, hucursor, hu⟩ := runCommands_feed_last hmode hvalid hf hbytes hv ht
  refine ⟨⟨v, hrun, hbytes⟩, _, u, (exec_frameInstr now f _).trans ht, ?_, hucursor, ⟨evs, rfl⟩, hu⟩
  have hfeed : feed f.bytes now = feed f.bytes.dropLast now ++ feed [f.bytes.getLast hne] now := by
    rw [feed, feed, feed, ← List.map_append, ← hf]
  rw [hfeed]
  exact runCommands_append _ _ s v u [] _ hrun hlast

/-- Settles O59: the built frame is valid for every size that was not refused, and a valid frame is received whole. -/
theorem encoderRoundTrip : Obligations.EncoderRoundTrip := by
  unfold Obligations.EncoderRoundTrip
  intro s t u addr type payload x now hexec hwrites hpos hmode hempty hparams
  have hsent : ¬s.txRefused payload.length = true := fun hrefused => by
    cases (exec_queueFrame_of_refused addr type hrefused).symm.trans hexec
    simp at hwrites
  cases (exec_queueFrame_of_sent addr type hsent).symm.trans hexec
  obtain rfl : (Frame.build addr type payload).bytes = x := by simpa using hwrites
  have hfits : payload.length ≤ s.params.maxPayload := by
    rw [State.txRefused_iff] at hsent
    omega
  have hvalid : (Frame.build addr type payload).valid s.params = true :=
    build_valid s.params addr type payload hpos (by have := s.params.maxPayload_le; omega)
  have hdec := decodeFrame_bytes now (hparams ▸ hvalid : (Frame.build addr type payload).valid u.params = true)
  obtain ⟨_, _, v, _, hrun, hvempty, ⟨evs, hevents⟩, _⟩ := framingCorrect u _ _ now hmode hempty hdec
  exact ⟨(validFrame_bytes _ _).2 hvalid, rfl, List.take_left' rfl, v, evs, hevents ▸ hrun, hvempty⟩

/-! ### What RX_BYTE can answer -/

/-- Whatever RX_BYTE answers is the byte bypassed (R187), or what VALIDATE makes of the appended buffer (R195). -/
theorem execRxByte_cases {s t : State} {b : Byte} {now : Word32} (h : execRxByte b now s = .next t) :
    (s.passthrough = true ∧ t = (s.stampByte now).emit (.rawByte b)) ∨
      (s.passthrough = false ∧ Progress now ((s.stampByte now).pushByte b) t) := by
  cases hmode : s.passthrough with
  | true =>
    rw [execRxByte_passthrough b now hmode] at h
    cases h
    exact .inl ⟨rfl, rfl⟩
  | false =>
    obtain ⟨u, hu, _, hprog, _⟩ := execRxByte_framed b now hmode (execRxByte_room hmode h)
    cases hu.symm.trans h
    exact .inr ⟨rfl, hprog⟩

/-- In framed mode RX_BYTE is its three operations in order (R195). -/
theorem execRxByte_eq_andThen {s : State} (b : Byte) (now : Word32) (hmode : s.passthrough = false) :
    execRxByte b now s =
      ((appendByte b (s.stampByte now)).andThen (validateBuffer now)).andThen discardIfFull :=
  if_neg (by simp [hmode])

/-- Settles O42: the three operations in order; what VALIDATE may write beside the stamp is the frame. -/
theorem rxByteFramedEffect : Obligations.RxByteFramedEffect := by
  unfold Obligations.RxByteFramedEffect
  intro s b now hmode hroom
  obtain ⟨t, hexec, _, hprog, hquiet⟩ := execRxByte_framed b now hmode hroom
  obtain ⟨evs, hevents, _⟩ := hprog.events
  exact ⟨t, hexec, (execRxByte_eq_andThen b now hmode).symm.trans hexec, hquiet, ⟨evs, hevents⟩, hprog.rest⟩

theorem Progress.lastByteTime {now : Word32} {s t : State} (h : Progress now s t) : t.lastByteTime = s.lastByteTime :=
  (congrArg State.lastByteTime h.rest :)

theorem execRxByte_lastByteTime {s t : State} {b : Byte} {now : Word32} (h : execRxByte b now s = .next t) :
    t.lastByteTime = now := by
  rcases execRxByte_cases h with ⟨_, rfl⟩ | ⟨_, hprog⟩
  · rfl
  · exact hprog.lastByteTime

/-- Settles O45: no time has elapsed since the stamp, so DRAIN's strict guard is closed. -/
theorem drainRightAfterByteDoesNothing : Obligations.DrainRightAfterByteDoesNothing := by
  unfold Obligations.DrainRightAfterByteDoesNothing
  intro s t b now h
  have helapsed : elapsed now t.lastByteTime = 0 := by
    rw [execRxByte_lastByteTime h, elapsed, BitVec.sub_self]
    rfl
  exact if_neg (State.not_stale_iff.2 (.inr (by omega)))

/-! ### The implicit states (R23) -/

theorem State.reassemblerState_eq_empty_iff {s : State} : s.reassemblerState = .empty ↔ s.cursor = 0 := by
  unfold State.reassemblerState
  split_ifs <;> simp <;> omega

theorem State.reassemblerState_eq_accumulating_iff {s : State} : s.reassemblerState = .accumulating ↔ s.cursor = 1 := by
  unfold State.reassemblerState
  split_ifs <;> simp <;> omega

theorem State.reassemblerState_eq_lengthKnown_iff {s : State} :
    s.reassemblerState = .lengthKnown ↔ 2 ≤ s.cursor ∧ s.cursor < s.headLen + 2 := by
  unfold State.reassemblerState
  split_ifs <;> simp <;> omega

/-! ### One byte appended -/

@[simp] theorem State.bytes_stampByte (s : State) (now : Word32) : (s.stampByte now).bytes = s.bytes :=
  State.bytes_congr rfl rfl

/-- From the third byte on the length byte is already there. -/
theorem State.headLen_pushByte_known {s : State} (b : Byte) (h : 2 ≤ s.cursor) : (s.pushByte b).headLen = s.headLen :=
  congrArg BitVec.toNat (s.readByte_pushByte_other b (by omega))

/-- A read below the cursor does not see the appended byte. -/
theorem State.memRead_pushByte {s : State} (b : Byte) {a n : Nat} (h : a + n ≤ s.cursor) :
    (s.pushByte b).memRead a n = s.memRead a n := by
  refine List.map_congr_left fun j hj => s.readByte_pushByte_other b ?_
  have := List.mem_range.1 hj
  omega

/-- The byte that completes the candidate is compared with the checksum of what is already there (R105). -/
theorem State.headChecksumOk_pushByte {s : State} (b : Byte) (h2 : 2 ≤ s.cursor) (hall : s.cursor + 1 = s.headLen + 2) :
    (s.pushByte b).headChecksumOk = true ↔ b = crc8 (s.memRead 2 (s.headLen - 1)) := by
  have hlast : (s.pushByte b).readByte (s.headLen + 1) = b := by
    rw [show s.headLen + 1 = s.cursor by omega, s.readByte_pushByte_cursor b]
  rw [State.headChecksumOk, State.headLen_pushByte_known b h2, State.memRead_pushByte b (by omega), hlast,
    decide_eq_true_iff, eq_comm]

/-- A second byte beyond either bound of R72 costs the first byte its place (R113); `validateBuffer_pushByte_oversized` is
its upper half. -/
theorem validateBuffer_pushByte_implausible (now : Word32) {s : State} {b : Byte} (h : s.cursor = 1)
    (hb : b.toNat < 3 ∨ s.params.maxLen < b.toNat) :
    validateBuffer now (s.pushByte b) = .next (((s.pushByte b).emit (.rawByte (s.readByte 0))).shifted 1) := by
  have hcursor : (s.pushByte b).cursor = 2 := by rw [State.pushByte_cursor, h]
  have hcap : (s.pushByte b).cursor ≤ (s.pushByte b).params.cap := by
    rw [hcursor, Params.cap]
    exact Nat.le_add_left 2 _
  rw [← State.headLen_pushByte b h] at hb
  rw [validateBuffer_badLength now hcursor.ge hb, discardOne_eq (by omega) hcap, Result.andThen_next,
    s.readByte_pushByte_other b (by omega)]
  exact validateBuffer_quiescent now (.inl (by simp [h]))

/-- The byte that completes a candidate with the right checksum: the frame is handed on and the buffer emptied (R114). -/
theorem validateBuffer_pushByte_rightChecksum {now : Word32} {s t : State} {b : Byte} (h2 : 2 ≤ s.cursor)
    (hplausible : 3 ≤ s.headLen ∧ s.headLen ≤ s.params.maxLen) (hall : s.cursor + 1 = s.headLen + 2)
    (hcrc : b = crc8 (s.memRead 2 (s.headLen - 1))) (h : validateBuffer now (s.pushByte b) = .next t) :
    t.cursor = 0 ∧ ∃ evs, t.events = s.events ++ .frameValid (s.bytes ++ [b]) :: evs ∧ reportedBytes evs = [] := by
  have hlen := State.headLen_pushByte_known b h2
  have hwhole : (s.pushByte b).headLen + 2 = (s.pushByte b).cursor := by rw [hlen, State.pushByte_cursor, hall]
  have hvalid : (s.pushByte b).headValid = true := by
    rw [State.headValid_iff, hlen, State.pushByte_cursor, State.headChecksumOk_pushByte b h2 hall]
    exact ⟨by omega, hplausible, by omega, hcrc⟩
  have hcap : (s.pushByte b).cursor ≤ (s.pushByte b).params.cap := by
    rw [State.pushByte_cursor, State.pushByte_params, Params.cap]
    omega
  obtain ⟨u, hhand, _, hcursor, _⟩ := framePass_eq (now := now) hvalid hcap
  obtain ⟨evs, hevents, hreported, _⟩ := handOff_cases hhand
  have hframe : (s.pushByte b).headFrame.bytes = s.bytes ++ [b] := by
    rw [State.headFrame_bytes (by omega), hwhole, ← State.bytes_pushByte]
    rfl
  rw [validateBuffer_wholeFrame hvalid hwhole hcap hhand] at h
  cases h
  exact ⟨by rw [State.shifted_cursor, hcursor, hwhole, Nat.sub_self], evs, hframe ▸ hevents, hreported⟩

/-- The byte that completes a candidate with a wrong checksum: the leading byte is surfaced first (R114). -/
theorem validateBuffer_pushByte_wrongChecksum {now : Word32} {s t : State} {b : Byte} (h2 : 2 ≤ s.cursor)
    (hplausible : 3 ≤ s.headLen ∧ s.headLen ≤ s.params.maxLen) (hall : s.cursor + 1 = s.headLen + 2)
    (hcrc : b ≠ crc8 (s.memRead 2 (s.headLen - 1))) (h : validateBuffer now (s.pushByte b) = .next t) :
    ∃ evs, t.events = s.events ++ .rawByte (s.readByte 0) :: evs := by
  have hlen := State.headLen_pushByte_known b h2
  rw [validateBuffer_complete now (by rw [State.pushByte_cursor]; omega) (by omega) (by rw [hlen]; exact hplausible.2)
    (by rw [hlen, State.pushByte_cursor, hall]), if_neg (mt (State.headChecksumOk_pushByte b h2 hall).1 hcrc)] at h
  obtain ⟨u, hone, hrest⟩ := Result.andThen_eq_next.1 h
  obtain ⟨_, _, rfl⟩ := discardOne_cases hone
  obtain ⟨evs, hevents, _⟩ := (Progress.validateLoop hrest).events
  refine ⟨evs, hevents.trans ?_⟩
  simp [s.readByte_pushByte_other b (show 0 ≠ s.cursor by omega)]

/-- Settles O43: three rows leave a quiescent buffer that VALIDATE does not touch; the other three are VALIDATE's. -/
theorem rxByteStateTable : Obligations.RxByteStateTable := by
  unfold Obligations.RxByteStateTable
  intro s b now hmode hquiet
  obtain ⟨t, hexec, hvalidate, _⟩ := execRxByte_framed b now hmode (State.cursor_lt_cap hquiet)
  have hstays : ((s.stampByte now).pushByte b).Quiescent → t = (s.stampByte now).pushByte b := fun hq => by
    rw [validateBuffer_quiescent now hq] at hvalidate
    cases hvalidate
    rfl
  have hplausible : 2 ≤ s.cursor → 3 ≤ s.headLen ∧ s.headLen ≤ s.params.maxLen := fun h2 => by
    rcases hquiet with hfew | ⟨h3, hmax, _⟩
    · omega
    · exact ⟨h3, hmax⟩
  simp only [State.reassemblerState_eq_empty_iff, State.reassemblerState_eq_accumulating_iff,
    State.reassemblerState_eq_lengthKnown_iff]
  refine ⟨t, hexec, fun h0 => ?first, fun h1 h3 hmax => ?plausible, fun h1 hbad => ?implausible,
    fun ⟨h2, _⟩ hpart => ?inside, fun ⟨h2, _⟩ hall hcrc => ?complete, fun ⟨h2, _⟩ hall hcrc => ?wrong⟩
  case first =>
    have hnone : s.bytes = [] := List.length_eq_zero_iff.1 (by rw [State.bytes_length, h0])
    obtain rfl := hstays (.inl (by simp [h0]))
    exact ⟨by simp [h0], rfl, by simp [hnone]⟩
  case plausible =>
    have hlen : ((s.stampByte now).pushByte b).headLen = b.toNat := State.headLen_pushByte b h1
    obtain rfl := hstays (.inr (by simp [hlen, h1]; omega))
    exact ⟨by simp [hlen, h1]; omega, rfl, by simp⟩
  case implausible =>
    rw [validateBuffer_pushByte_implausible now (s := s.stampByte now) h1 hbad] at hvalidate
    cases hvalidate
    have hone : (s.stampByte now).bytes.length = 1 := by rw [State.bytes_length, State.stampByte_cursor, h1]
    refine ⟨by simp [h1], rfl, ?_⟩
    rw [State.bytes_shifted, State.bytes_emit, State.bytes_pushByte, List.drop_left' hone]
  case inside =>
    have hlen : ((s.stampByte now).pushByte b).headLen = s.headLen := State.headLen_pushByte_known b h2
    obtain ⟨h3, hmax⟩ := hplausible h2
    obtain rfl := hstays (.inr (by simp [hlen, h3, hmax, hpart]))
    exact ⟨by simp [hlen, hpart]; omega, rfl, by simp⟩
  case complete =>
    exact validateBuffer_pushByte_rightChecksum (s := s.stampByte now) h2 (hplausible h2) hall hcrc hvalidate
  case wrong =>
    exact validateBuffer_pushByte_wrongChecksum (s := s.stampByte now) h2 (hplausible h2) hall hcrc hvalidate

end Sys2Proof.Machine

/-! Runs of commands and steps: what one command keeps or balances, a run does; settles O38, O56, O52, O53, O54, O55 and
O57. -/

namespace Sys2Proof.Machine

theorem State.cursor_lt_cap_of_inv {s : State} (h : s.Inv) : s.cursor < s.params.cap := by
  obtain ⟨_, _, hquiet⟩ := h
  exact State.cursor_lt_cap hquiet

/-! ### Runs -/

/-- The link events of a run lead from the flag before it to the flag after it (R163). -/
theorem runCommands_edges {cmds : List Instr} {s u : State} {evs : List Event}
    (hcmds : ∀ i ∈ cmds, commandCode i = true) (h : runCommands cmds s = some (u, evs)) :
    followEdges s.linkUp (linkEdges evs) = some u.linkUp := by
  induction cmds generalizing s evs with
  | nil =>
    cases h
    rfl
  | cons i is ih =>
    obtain ⟨t, e, hi, his, rfl⟩ := runCommands_cons h
    obtain ⟨hcode, htail⟩ := List.forall_mem_cons.1 hcmds
    rw [linkEdges_append]
    exact followEdges_append (command_edges (s := { s with events := [] }) hcode rfl hi) (ih htail his)

/-- Settles O38: the edges of the run follow the flag from down, and alternation fixes the counts. -/
theorem linkEventsAlternate : Obligations.LinkEventsAlternate := by
  unfold Obligations.LinkEventsAlternate
  intro cmds s u evs hcmds hdown hrun
  have hedges : followEdges false (linkEdges evs) = some u.linkUp := hdown ▸ runCommands_edges hcmds hrun
  exact ⟨hedges, by simpa using followEdges_count hedges⟩

/-- Settles O56: each command completes under the invariant, keeps it, and balances its two books. -/
theorem bytesConserved : Obligations.BytesConserved := by
  unfold Obligations.BytesConserved
  intro cmds s hcmds hinv
  induction cmds generalizing s with
  | nil => exact ⟨s, [], [], rfl, by simp⟩
  | cons i is ih =>
    obtain ⟨hcode, htail⟩ := List.forall_mem_cons.1 hcmds
    have hstart : ({ s with events := [] } : State).Inv := hinv
    obtain ⟨t, ht⟩ := command_completes hcode (State.cursor_lt_cap_of_inv hstart)
    obtain ⟨u, recv, out, hrun, hbooks⟩ := ih t htail (command_inv hcode hstart ht)
    refine ⟨u, receivedByte s i ++ recv, takenBytes s i t.events ++ out, by simp only [runLedger, ht, hrun], ?_⟩
    calc s.bytes ++ (receivedByte s i ++ recv)
      _ = takenBytes s i t.events ++ t.bytes ++ recv := by
        rw [← List.append_assoc]
        exact congrArg (· ++ recv) (command_books (s := { s with events := [] }) hcode rfl ht)
      _ = takenBytes s i t.events ++ out ++ u.bytes := by rw [List.append_assoc, hbooks, List.append_assoc]

/-! ### The invariant -/

/-- Settles O52: the reset state lists nothing and its cursor is 0. -/
theorem invariantAtReset : Obligations.InvariantAtReset := State.inv_of rfl (.inl (by decide))

/-- Under the quiescent form fewer bytes are held than the candidate's size, or fewer than two (R23, R35). -/
theorem State.reassemblerState_ne_complete {s : State} (h : s.Quiescent) : s.reassemblerState ≠ .complete := by
  unfold State.reassemblerState
  rcases h with hfew | ⟨_, _, hpart⟩
  · rcases Nat.lt_or_ge s.cursor 1 with h0 | h1
    · simp [Nat.lt_one_iff.1 h0]
    · simp [show s.cursor = 1 by omega]
  · simp only [if_pos hpart]
    split_ifs <;> simp

/-- Settles O54: the quiescent form bounds the cursor below CAP, and CAP is at most 255 (R8). -/
theorem invariantBoundsCursor : Obligations.InvariantBoundsCursor := by
  unfold Obligations.InvariantBoundsCursor
  rintro s ⟨_, _, hquiet⟩
  have hcap := State.cursor_lt_cap hquiet
  have hmax := s.params.maxLen_le
  exact ⟨hcap, by rw [Params.cap] at hcap; omega, State.reassemblerState_ne_complete hquiet⟩

/-! ### Steps -/

/-- A decoded instruction whose step answers is RESET or a command (R78, R81). -/
theorem step_next_of_decodePort {s t : State} {i : Instr} {rest : List Beat} (hdec : decodePort s.port = .ok (i, rest))
    (h : step s = .next t) :
    (i = .reset ∧ t = resetBlock (s.accept rest)) ∨ (commandCode i = true ∧ exec i (s.accept rest) = .next t) := by
  rw [step_of_decodePort hdec] at h
  rcases decodePort_cases hdec with rfl | hcode | rfl | rfl | rfl
  · cases h
    exact .inl ⟨rfl, rfl⟩
  · exact .inr ⟨hcode, h⟩
  all_goals cases h

/-- RESET leaves an empty buffer (R240). -/
theorem inv_resetBlock (s : State) : (resetBlock s).Inv := State.inv_of rfl (.inl (Nat.succ_pos 1))

/-- Settles O53: a wait leaves the buffer, RESET empties it, and a command keeps the invariant. -/
theorem stepKeepsInvariant : Obligations.StepKeepsInvariant := by
  unfold Obligations.StepKeepsInvariant
  intro s t hinv hstep
  rcases step_cases s with ⟨i, rest, hdec, _⟩ | hwait
  · rcases step_next_of_decodePort hdec hstep with ⟨_, rfl⟩ | ⟨hcode, hexec⟩
    · exact inv_resetBlock _
    · exact command_inv (s := s.accept rest) hcode hinv hexec
  · cases hwait.symm.trans hstep
    exact hinv

/-- Settles O57: the one report of a frame is VALIDATE's, which has checked it. -/
theorem reportedFramesAreValid : Obligations.ReportedFramesAreValid := by
  unfold Obligations.ReportedFramesAreValid
  exact fun _ _ _ => validFrame_of_step

/-! ### What stops a step -/

theorem decodeQueueFrame_cases {bs rest : List Beat} {i : Instr} (h : decodeQueueFrame bs = .ok (i, rest)) :
    ∃ addr type payload, i = .queueFrame addr type payload := by
  unfold decodeQueueFrame at h
  split at h
  · split at h <;> cases h
    exact ⟨_, _, _, rfl⟩
  all_goals cases h

/-- The head beat decides: the pin, a QUEUE_FRAME, or a command of one beat (R78). -/
theorem decodePort_cons_cases {b : Beat} {bs rest : List Beat} {i : Instr} (h : decodePort (b :: bs) = .ok (i, rest)) :
    i = .reset ∨ (∃ addr type payload, i = .queueFrame addr type payload) ∨
      (b.rst = false ∧ b.op ≠ 4 ∧ i = decodeOneBeat b) := by
  rw [decodePort] at h
  split_ifs at h with hrst hop
  · cases h
    exact .inl rfl
  · split at h
    · cases h
      exact .inl rfl
    · exact .inr (.inl (decodeQueueFrame_cases h))
  · cases h
    exact .inr (.inr ⟨Bool.eq_false_iff.2 hrst, hop, rfl⟩)

/-- A code of one beat that is not reserved is a command's (R78, R81). -/
theorem commandCode_decodeOneBeat {b : Beat} (hop : b.op ≠ 4)
    (h : ¬(b.op = 0b101 ∨ b.op = 0b110 ∨ b.op = 0b111)) : commandCode (decodeOneBeat b) = true := by
  have hcodes : ∀ op : BitVec 3, op ≠ 4 → ¬(op = 0b101 ∨ op = 0b110 ∨ op = 0b111) →
      op = 0 ∨ op = 1 ∨ op = 2 ∨ op = 3 := by decide
  rcases hcodes b.op hop h with h | h | h | h <;> simp [decodeOneBeat, h, commandCode]

/-- Under the invariant RESET and every command answer a next state (R210). -/
theorem exec_completes {i : Instr} {s : State} (hinv : s.Inv) (hi : commandCode i = true ∨ i = .reset) :
    ∃ t, exec i s = .next t := by
  rcases hi with hcode | rfl
  · exact command_completes hcode (State.cursor_lt_cap_of_inv hinv)
  · exact ⟨resetBlock s, rfl⟩

/-- Settles O55: the head beat is reserved and refused, or what it begins is RESET or a command. -/
theorem commandsAlwaysComplete : Obligations.CommandsAlwaysComplete := by
  unfold Obligations.CommandsAlwaysComplete
  refine ⟨fun s i hinv hi => exec_completes hinv hi, fun s hinv => ?_⟩
  rcases step_cases s with ⟨i, rest, hdec, hstep⟩ | hwait
  case inr => exact .inl ⟨_, hwait⟩
  have hcompletes : commandCode i = true ∨ i = .reset → ∃ t, step s = .next t := fun hi =>
    hstep ▸ exec_completes (s := s.accept rest) hinv hi
  cases hport : s.port with
  | nil =>
    rw [hport] at hdec
    cases hdec
  | cons b bs =>
    rw [hport] at hdec
    rcases decodePort_cons_cases hdec with rfl | ⟨addr, type, payload, rfl⟩ | ⟨hrst, hop, rfl⟩
    · exact .inl (hcompletes (.inr rfl))
    · exact .inl (hcompletes (.inl rfl))
    · by_cases hreserved : b.op = 0b101 ∨ b.op = 0b110 ∨ b.op = 0b111
      · exact .inr ⟨b, bs, rfl, hrst, hreserved, (reservedCodesRefused s b bs hport hrst hreserved).1⟩
      · exact .inl (hcompletes (.inl (commandCode_decodeOneBeat hop hreserved)))

end Sys2Proof.Machine

/-! Who writes what: the frame of RX_BYTE and of the other four commands, read off for the link and for the rest of the
state; settles O39 and O60. -/

namespace Sys2Proof.Machine

/-! ### Frames -/

/-- POLL writes the buffer, the flag (which it can only lower) and events (R196). -/
theorem execPoll_frame {s t : State} {now : Word32} (h : execPoll now s = .next t) :
    t = { s with buf := t.buf, cursor := t.cursor, linkUp := t.linkUp, events := t.events } ∧
      (s.linkUp = false → t.linkUp = false) := by
  rw [execPoll_cases h, checkLink_eq]
  split
  · exact ⟨rfl, fun hdown => by simp [hdown]⟩
  · exact ⟨rfl, fun hdown => by simp [hdown]⟩

/-- NOP, SET_PASSTHROUGH and QUEUE_FRAME write the mode and events at most (R27, R176, R198). -/
theorem quietCommand_frame {i : Instr} {s t : State}
    (hi : i = .nop ∨ (∃ v sp, i = .setPassthrough v sp) ∨ ∃ a y q, i = .queueFrame a y q) (h : exec i s = .next t) :
    t = { s with passthrough := t.passthrough, events := t.events } := by
  rcases hi with rfl | ⟨val, speed, rfl⟩ | ⟨addr, type, payload, rfl⟩
  · cases h
    rfl
  · cases (execSetPassthrough_eq val speed s).symm.trans h
    rfl
  · cases (execQueueFrame_eq addr type payload s).symm.trans h
    split <;> rfl

/-- The commands by what they may write: RX_BYTE, POLL, and the three that leave buffer and link alone. -/
theorem commandCode_cases {i : Instr} (hi : commandCode i = true) :
    (∃ b now, i = .rxByte b now) ∨ (∃ now, i = .poll now) ∨
      (i = .nop ∨ (∃ v sp, i = .setPassthrough v sp) ∨ ∃ a y q, i = .queueFrame a y q) := by
  cases i <;> simp [commandCode] at hi ⊢

/-- What no command but RX_BYTE writes: stamps, channels, parameters and the model's own fields. -/
theorem command_frame {i : Instr} {s t : State} (hi : commandCode i = true) (hrx : ¬∃ b now, i = .rxByte b now)
    (h : exec i s = .next t) :
    t = { s with
      buf := t.buf, cursor := t.cursor, linkUp := t.linkUp, passthrough := t.passthrough, events := t.events } := by
  rcases (commandCode_cases hi).resolve_left hrx with ⟨now, rfl⟩ | hquiet
  · rw [(execPoll_frame h).1]
  · rw [quietCommand_frame hquiet h]

/-! ### RX_BYTE -/

/-- The events of an RX_BYTE account for every change of the link and of the channels (R160, R166, R143). -/
theorem execRxByte_reports {s t : State} {b : Byte} {now : Word32} (he : s.events = [])
    (h : execRxByte b now s = .next t) :
    ((s.linkUp = false ∧ t.linkUp = true) ∨ t.lastChannelFrameTime ≠ s.lastChannelFrameTime →
      (∃ e ∈ t.events, reportsHeartbeat s.params e = true) ∧ t.lastChannelFrameTime = now) ∧
    (t.channels ≠ s.channels → Event.channelsUpdated ∈ t.events) := by
  rcases execRxByte_cases h with ⟨_, rfl⟩ | ⟨_, hprog⟩
  · simp
  · obtain ⟨evs, hevents, _, _, _, hlink, hchannels⟩ := hprog.events
    have hevs : t.events = evs := by simpa [he] using hevents
    rw [hevs]
    exact ⟨hlink, hchannels⟩

theorem execRxByte_params {s t : State} {b : Byte} {now : Word32} (h : execRxByte b now s = .next t) :
    t.params = s.params := by
  rcases execRxByte_cases h with ⟨_, rfl⟩ | ⟨_, hprog⟩
  · rfl
  · exact hprog.params

/-! ### Any command -/

theorem command_keeps_params {i : Instr} {s t : State} (hi : commandCode i = true) (h : exec i s = .next t) :
    t.params = s.params := by
  by_cases hrx : ∃ b now, i = .rxByte b now
  · obtain ⟨b, now, rfl⟩ := hrx
    exact execRxByte_params h
  · exact (congrArg State.params (command_frame hi hrx h) :)

/-- The link rises, and its stamp changes, only with a heartbeat frame that an RX_BYTE reports (R160, R166). -/
theorem command_link_rises {i : Instr} {s t : State} (hi : commandCode i = true) (he : s.events = [])
    (h : exec i s = .next t)
    (hchange : (s.linkUp = false ∧ t.linkUp = true) ∨ t.lastChannelFrameTime ≠ s.lastChannelFrameTime) :
    (∃ e ∈ t.events, reportsHeartbeat s.params e = true) ∧ ∃ b, i = .rxByte b t.lastChannelFrameTime := by
  rcases commandCode_cases hi with ⟨b, now, rfl⟩ | ⟨now, rfl⟩ | hquiet
  · obtain ⟨hlink, _⟩ := execRxByte_reports he h
    obtain ⟨hbeat, hstamp⟩ := hlink hchange
    exact ⟨hbeat, b, by rw [hstamp]⟩
  · obtain ⟨hframe, hdown⟩ := execPoll_frame h
    have hstamp : t.lastChannelFrameTime = s.lastChannelFrameTime := by rw [hframe]
    obtain ⟨hwas, hup⟩ := hchange.resolve_right (not_not_intro hstamp)
    simp [hdown hwas] at hup
  · rw [quietCommand_frame hquiet h] at hchange
    simp at hchange

/-- The link falls in POLL only (R162). -/
theorem command_link_falls {i : Instr} {s t : State} (hi : commandCode i = true) (h : exec i s = .next t)
    (hup : s.linkUp = true) (hdown : t.linkUp = false) : ∃ now, i = .poll now := by
  rcases commandCode_cases hi with ⟨b, now, rfl⟩ | hpoll | hquiet
  · simp [execRxByte_keeps_linkUp h hup] at hdown
  · exact hpoll
  · rw [quietCommand_frame hquiet h] at hdown
    simp [hup] at hdown

/-- Settles O39: RESET takes the link down and clears its stamp; the rest are the commands' rules. -/
theorem linkChangesOnlyByItsRules : Obligations.LinkChangesOnlyByItsRules := by
  unfold Obligations.LinkChangesOnlyByItsRules
  intro s t i rest hdec hstep
  rcases step_next_of_decodePort hdec hstep with ⟨rfl, rfl⟩ | ⟨hcode, hexec⟩
  · refine ⟨fun hchange => ?_, fun _ _ => .inl rfl⟩
    rcases hchange with ⟨_, hup⟩ | ⟨_, hreset⟩
    · exact absurd hup (by simp [resetBlock])
    · exact absurd rfl hreset
  · exact ⟨fun hchange => command_link_rises (s := s.accept rest) hcode rfl hexec (hchange.imp_right And.left),
      fun hup hdown => .inr (command_link_falls (s := s.accept rest) hcode hexec hup hdown)⟩

/-! ### The rest of the state -/

theorem command_keeps_lastByteTime {i : Instr} {s t : State} (hi : commandCode i = true) (h : exec i s = .next t)
    (hchange : t.lastByteTime ≠ s.lastByteTime) : ∃ b now, i = .rxByte b now := by
  by_contra hrx
  exact hchange (congrArg State.lastByteTime (command_frame hi hrx h) :)

/-- The channels change only with a CHANNELS_UPDATED in the same command (R143). -/
theorem command_channels_reported {i : Instr} {s t : State} (hi : commandCode i = true) (he : s.events = [])
    (h : exec i s = .next t) (hchange : t.channels ≠ s.channels) : Event.channelsUpdated ∈ t.events := by
  by_cases hrx : ∃ b now, i = .rxByte b now
  · obtain ⟨b, now, rfl⟩ := hrx
    exact (execRxByte_reports he h).2 hchange
  · exact absurd (congrArg State.channels (command_frame hi hrx h) :) hchange

/-- Settles O60: RESET is the exception that every clause but the parameters' names. -/
theorem stateWritersAreListed : Obligations.StateWritersAreListed := by
  unfold Obligations.StateWritersAreListed
  intro s t i rest hdec hstep
  rcases step_next_of_decodePort hdec hstep with ⟨rfl, rfl⟩ | ⟨hcode, hexec⟩
  · exact ⟨rfl, fun _ => .inl rfl, fun _ => .inl rfl, fun _ => .inl rfl, fun hquiet => by simp at hquiet⟩
  · refine ⟨command_keeps_params (s := s.accept rest) hcode hexec, fun hmode => .inr ?mode,
      fun hstamp => .inr (command_keeps_lastByteTime hcode hexec hstamp),
      fun hchannels => .inr (command_channels_reported hcode rfl hexec hchannels), fun hquiet => ?quiet⟩
    case mode =>
      by_contra hset
      exact hmode (command_keeps_passthrough (s := s.accept rest) hcode (fun v sp hi => hset ⟨v, sp, hi⟩) hexec)
    case quiet =>
      rw [quietCommand_frame hquiet hexec]
      exact ⟨rfl, rfl, rfl⟩

end Sys2Proof.Machine
